-- ==== Sys2Proof/Word.lean ====
section
/-! DEFINITION. The two widths of the hardware (00_scope.md R3, R4): a byte is 8 bits (`XLEN`), a word is 16 bits
(`ALEN`). All values are unsigned; `+` on them wraps, which is the spec's `+8` and `+16`. -/

namespace Sys2Proof

/-- An 8-bit value: a memory cell, a data register, an operand byte (R3 `XLEN`). -/
abbrev Byte := BitVec 8

/-- A 16-bit value: an address or the program counter (R3 `ALEN`). -/
abbrev Word := BitVec 16

end Sys2Proof
end

