-- ==== Sys2Proof/Machine/Alu.lean ====
section
/-! DEFINITION. The three data operations of the ALU (43_logical.md R140). None produces a carry or an overflow. -/

namespace Sys2Proof.Machine

/-- `PASS(v)`: used by LDA and TAX. -/
def aluPass (v : Byte) : Byte := v

/-- `AND(a, v)`: bit by bit; used by AND. -/
def aluAnd (a v : Byte) : Byte := a &&& v

/-- `INC(x)`: `x +8 1`; used by INX. -/
def aluInc (x : Byte) : Byte := x + 1

end Sys2Proof.Machine
end

