-- ==== Sys2Proof/Config.lean ====
section
/-! DEFINITION. The implementation parameters of 00_scope.md R3: the constants, and the types and defaults of the
three open parameters `ITAB`, `RESET_P` and `INDY_READING`. The spec leaves no value free, so no constant is opaque. -/

namespace Sys2Proof

/-- The ten addressing modes, a closed set (30_encoding.md R54). -/
inductive Mode where
  | immediate | zeroPage | zeroPageX | zeroPageY | absolute | absoluteX | absoluteY
  | indirectX | indirectY | noneAddressing
  deriving DecidableEq, Repr

/-- The six mnemonic tags, a closed set (R54; the tags are the spec's decision D5). -/
inductive Mnemonic where
  | lda | sta | and | tax | inx | brk
  deriving DecidableEq, Repr

/-- One row of the instruction table (R55). `cycles` and `pageCross` (the "+1" mark of R58) are data that no rule
uses (70_reset_and_hazards.md R212). PRESUMED, safe: log entry 20. -/
structure Descriptor where
  opcode : Byte
  mnemonic : Mnemonic
  mode : Mode
  length : Nat
  cycles : Nat
  pageCross : Bool
  deriving DecidableEq, Repr

/-- An instruction table `ITAB`: a finite map from opcode byte to descriptor (R55), as its list of rows. -/
abbrev ITab := List Descriptor

/-- The three readings of the IndirectY mode (41_addressing_modes.md R99, parameter `INDY_READING`). -/
inductive IndyReading where
  | canonical | literalPre | lowByteWrap
  deriving DecidableEq, Repr

namespace Config

/-- `MEM_SIZE`: the number of memory cells (R3). -/
abbrev memSize : Nat := 0x10000

/-- `PROGRAM_BASE`: where `load` places an image (R3). -/
abbrev programBase : Word := 0x8000

/-- `RESET_VECTOR`: the address of the low byte of the start address (R3). -/
abbrev resetVector : Word := 0xFFFC

/-- `HALT_OPCODE`: the opcode byte that ends a run (R3). -/
abbrev haltOpcode : Byte := 0x00

/-- `RESET_P`, default: the packed flags after reset (R3, 10_state.md R24, 90_conflicts.md C1).
DESIGN CHOICE of the spec (D2), unsafe: log entry 5. -/
abbrev resetP : Byte := 0x00

end Config

end Sys2Proof
end

