-- ==== Sys2Proof/Syntax.lean ====
section
/-! DEFINITION. The instruction set as syntax: one constructor for each of the 26 rows of spec/opcode_table.json
(30_encoding.md R58), with its operand: `d8` one operand byte, `a16` two operand bytes, low byte first (R50, R52). -/

namespace Sys2Proof

/-- An instruction with its operand. The operand stands in the instruction; the resolver of the spec reads the same
bytes from memory at `pc` (41_addressing_modes.md R90). DEDUCED, safe: log entry 8. -/
inductive Instr where
  /-- LDA Immediate, 0xA9 (42_load_store.md R111). -/
  | ldaImm (d8 : Byte)
  /-- LDA ZeroPage, 0xA5 (R112). -/
  | ldaZp (d8 : Byte)
  /-- LDA ZeroPageX, 0xB5 (R113). -/
  | ldaZpX (d8 : Byte)
  /-- LDA Absolute, 0xAD (R114). -/
  | ldaAbs (a16 : Word)
  /-- LDA AbsoluteX, 0xBD (R115). -/
  | ldaAbsX (a16 : Word)
  /-- LDA AbsoluteY, 0xB9 (R116). -/
  | ldaAbsY (a16 : Word)
  /-- LDA IndirectX, 0xA1 (R117). -/
  | ldaIndX (d8 : Byte)
  /-- LDA IndirectY, 0xB1 (R118). -/
  | ldaIndY (d8 : Byte)
  /-- STA ZeroPage, 0x85 (R121). -/
  | staZp (d8 : Byte)
  /-- STA ZeroPageX, 0x95 (R122). -/
  | staZpX (d8 : Byte)
  /-- STA Absolute, 0x8D (R123). -/
  | staAbs (a16 : Word)
  /-- STA AbsoluteX, 0x9D (R124). -/
  | staAbsX (a16 : Word)
  /-- STA AbsoluteY, 0x99 (R125). -/
  | staAbsY (a16 : Word)
  /-- STA IndirectX, 0x81 (R126). -/
  | staIndX (d8 : Byte)
  /-- STA IndirectY, 0x91 (R127). -/
  | staIndY (d8 : Byte)
  /-- AND Immediate, 0x29 (43_logical.md R142). -/
  | andImm (d8 : Byte)
  /-- AND ZeroPage, 0x25 (R143). -/
  | andZp (d8 : Byte)
  /-- AND ZeroPageX, 0x35 (R144). -/
  | andZpX (d8 : Byte)
  /-- AND Absolute, 0x2D (R145). -/
  | andAbs (a16 : Word)
  /-- AND AbsoluteX, 0x3D (R146). -/
  | andAbsX (a16 : Word)
  /-- AND AbsoluteY, 0x39 (R147). -/
  | andAbsY (a16 : Word)
  /-- AND IndirectX, 0x21 (R148). -/
  | andIndX (d8 : Byte)
  /-- AND IndirectY, 0x31 (R149). -/
  | andIndY (d8 : Byte)
  /-- TAX, 0xAA (44_transfer_increment.md R155). -/
  | tax
  /-- INX, 0xE8 (R156). -/
  | inx
  /-- BRK, 0x00: the halt (45_halt.md R165). -/
  | brk
  deriving DecidableEq, Repr

/-- The operand bytes of an instruction as they are assembled (R52): none, one byte, or a 16-bit word. -/
inductive Operand where
  | none
  | byte (d8 : Byte)
  | word (a16 : Word)
  deriving DecidableEq, Repr

/-- The mnemonic of an instruction's row (R58). -/
def Instr.mnemonic : Instr → Mnemonic
  | .ldaImm _ => .lda
  | .ldaZp _ => .lda
  | .ldaZpX _ => .lda
  | .ldaAbs _ => .lda
  | .ldaAbsX _ => .lda
  | .ldaAbsY _ => .lda
  | .ldaIndX _ => .lda
  | .ldaIndY _ => .lda
  | .staZp _ => .sta
  | .staZpX _ => .sta
  | .staAbs _ => .sta
  | .staAbsX _ => .sta
  | .staAbsY _ => .sta
  | .staIndX _ => .sta
  | .staIndY _ => .sta
  | .andImm _ => .and
  | .andZp _ => .and
  | .andZpX _ => .and
  | .andAbs _ => .and
  | .andAbsX _ => .and
  | .andAbsY _ => .and
  | .andIndX _ => .and
  | .andIndY _ => .and
  | .tax => .tax
  | .inx => .inx
  | .brk => .brk

/-- The addressing mode of an instruction's row (R58). -/
def Instr.mode : Instr → Mode
  | .ldaImm _ => .immediate
  | .ldaZp _ => .zeroPage
  | .ldaZpX _ => .zeroPageX
  | .ldaAbs _ => .absolute
  | .ldaAbsX _ => .absoluteX
  | .ldaAbsY _ => .absoluteY
  | .ldaIndX _ => .indirectX
  | .ldaIndY _ => .indirectY
  | .staZp _ => .zeroPage
  | .staZpX _ => .zeroPageX
  | .staAbs _ => .absolute
  | .staAbsX _ => .absoluteX
  | .staAbsY _ => .absoluteY
  | .staIndX _ => .indirectX
  | .staIndY _ => .indirectY
  | .andImm _ => .immediate
  | .andZp _ => .zeroPage
  | .andZpX _ => .zeroPageX
  | .andAbs _ => .absolute
  | .andAbsX _ => .absoluteX
  | .andAbsY _ => .absoluteY
  | .andIndX _ => .indirectX
  | .andIndY _ => .indirectY
  | .tax => .noneAddressing
  | .inx => .noneAddressing
  | .brk => .noneAddressing

/-- The operand an instruction carries (R52). -/
def Instr.operand : Instr → Operand
  | .ldaImm d8 => .byte d8
  | .ldaZp d8 => .byte d8
  | .ldaZpX d8 => .byte d8
  | .ldaAbs a16 => .word a16
  | .ldaAbsX a16 => .word a16
  | .ldaAbsY a16 => .word a16
  | .ldaIndX d8 => .byte d8
  | .ldaIndY d8 => .byte d8
  | .staZp d8 => .byte d8
  | .staZpX d8 => .byte d8
  | .staAbs a16 => .word a16
  | .staAbsX a16 => .word a16
  | .staAbsY a16 => .word a16
  | .staIndX d8 => .byte d8
  | .staIndY d8 => .byte d8
  | .andImm d8 => .byte d8
  | .andZp d8 => .byte d8
  | .andZpX d8 => .byte d8
  | .andAbs a16 => .word a16
  | .andAbsX a16 => .word a16
  | .andAbsY a16 => .word a16
  | .andIndX d8 => .byte d8
  | .andIndY d8 => .byte d8
  | .tax => .none
  | .inx => .none
  | .brk => .none

end Sys2Proof
end

