-- ==== Sys2Proof/WellFormed.lean ====
section
/-! DEFINITION. Well-formedness of an instruction table (30_encoding.md R56) and of an instruction against a table. -/

namespace Sys2Proof

/-- The number of operand bytes of a mode (R52, the "operand bytes" column). -/
def Mode.operandBytes : Mode → Nat
  | .noneAddressing => 0
  | .immediate => 1
  | .zeroPage => 1
  | .zeroPageX => 1
  | .zeroPageY => 1
  | .indirectX => 1
  | .indirectY => 1
  | .absolute => 2
  | .absoluteX => 2
  | .absoluteY => 2

/-- Whether a mnemonic needs an effective address (R54, last column). -/
def Mnemonic.needsAddress : Mnemonic → Bool
  | .lda => true
  | .sta => true
  | .and => true
  | .tax => false
  | .inx => false
  | .brk => false

/-- R56 item 1: opcodes are unique keys. -/
def ITab.uniqueKeys (tab : ITab) : Bool :=
  decide ((tab.map Descriptor.opcode).Nodup)

/-- R56 item 2: each length is one more than the operand bytes of the mode. -/
def ITab.lengthsAgree (tab : ITab) : Bool :=
  tab.all fun d => d.length == 1 + d.mode.operandBytes

/-- R56 item 3: exactly the mnemonics that need an address have a mode that gives one. -/
def ITab.modesAgree (tab : ITab) : Bool :=
  tab.all fun d => d.mnemonic.needsAddress == (d.mode != .noneAddressing)

/-- R56 item 4: exactly one row is BRK, and its opcode is `HALT_OPCODE`. -/
def ITab.oneHalt (tab : ITab) : Bool :=
  (tab.filter fun d => d.mnemonic == .brk).map Descriptor.opcode == [Config.haltOpcode]

/-- `WF(ITAB)` of R56. -/
def ITab.wf (tab : ITab) : Bool :=
  tab.uniqueKeys && tab.lengthsAgree && tab.modesAgree && tab.oneHalt

/-- An instruction is well-formed against a table when the table has a row for its form. Its operands need no
check: every value of `d8` and of `a16` is encodable (R50, R52). -/
def Instr.wellFormed (tab : ITab) (i : Instr) : Bool :=
  tab.any fun d => d.mnemonic == i.mnemonic && d.mode == i.mode

end Sys2Proof
end

