-- ==== Sys2Proof/Decode.lean ====
section
/-! DEFINITION. The instruction tables, the decoder (30_encoding.md R50 to R59, 40_fetch_decode_pc.md R73), and after it
the encoder. The decoder is a lookup of the whole opcode byte (R51), total on any list of bytes; it rejects by name. -/

namespace Sys2Proof

/-- `{hi, lo}` of R4: the 16-bit value `hi * 256 + lo`. -/
def concatBytes (hi lo : Byte) : Word := BitVec.ofNat 16 (hi.toNat * 256 + lo.toNat)

/-- `v[7:0]` of a word. -/
def lowByte (v : Word) : Byte := v.extractLsb' 0 8

/-- `v[15:8]` of a word. -/
def highByte (v : Word) : Byte := v.extractLsb' 8 8

/-- `zext_16` of a byte (R4). -/
def zext16 (v : Byte) : Word := v.setWidth 16

/-- `ITAB_SOURCE` (R57): the six rows the source shows. The cycle numbers are R58's. -/
def itabSource : ITab :=
  [ ⟨0xA9, .lda, .immediate, 2, 2, false⟩,
    ⟨0xA5, .lda, .zeroPage, 2, 3, false⟩,
    ⟨0x29, .and, .immediate, 2, 2, false⟩,
    ⟨0xAA, .tax, .noneAddressing, 1, 2, false⟩,
    ⟨0xE8, .inx, .noneAddressing, 1, 2, false⟩,
    ⟨0x00, .brk, .noneAddressing, 1, 7, false⟩ ]

/-- The six LDA rows of R58 beyond `itabSource`. PRESUMED by the spec (D4), unsafe: log entry 4. -/
def itabLoadRows : ITab :=
  [ ⟨0xB5, .lda, .zeroPageX, 2, 4, false⟩,
    ⟨0xAD, .lda, .absolute, 3, 4, false⟩,
    ⟨0xBD, .lda, .absoluteX, 3, 4, true⟩,
    ⟨0xB9, .lda, .absoluteY, 3, 4, true⟩,
    ⟨0xA1, .lda, .indirectX, 2, 6, false⟩,
    ⟨0xB1, .lda, .indirectY, 2, 5, true⟩ ]

/-- The seven STA rows of R58. PRESUMED by the spec (D4), unsafe: log entry 4. -/
def itabStoreRows : ITab :=
  [ ⟨0x85, .sta, .zeroPage, 2, 3, false⟩,
    ⟨0x95, .sta, .zeroPageX, 2, 4, false⟩,
    ⟨0x8D, .sta, .absolute, 3, 4, false⟩,
    ⟨0x9D, .sta, .absoluteX, 3, 5, false⟩,
    ⟨0x99, .sta, .absoluteY, 3, 5, false⟩,
    ⟨0x81, .sta, .indirectX, 2, 6, false⟩,
    ⟨0x91, .sta, .indirectY, 2, 6, false⟩ ]

/-- The seven AND rows of R58 beyond `itabSource`. PRESUMED by the spec (D4), unsafe: log entry 4. -/
def itabAndRows : ITab :=
  [ ⟨0x25, .and, .zeroPage, 2, 3, false⟩,
    ⟨0x35, .and, .zeroPageX, 2, 4, false⟩,
    ⟨0x2D, .and, .absolute, 3, 4, false⟩,
    ⟨0x3D, .and, .absoluteX, 3, 4, true⟩,
    ⟨0x39, .and, .absoluteY, 3, 4, true⟩,
    ⟨0x21, .and, .indirectX, 2, 6, false⟩,
    ⟨0x31, .and, .indirectY, 2, 5, true⟩ ]

/-- `ITAB_DEFAULT` (R58): the table this hardware takes. PRESUMED by the spec (D4), unsafe: log entry 4. -/
def itabDefault : ITab := itabSource ++ itabLoadRows ++ itabStoreRows ++ itabAndRows

/-- `ITAB(b)` of R55: the descriptor with opcode `b`, or none. -/
def ITab.lookup (tab : ITab) (b : Byte) : Option Descriptor :=
  tab.find? fun d => d.opcode == b

/-- The reasons a list of bytes is not an instruction. -/
inductive DecodeError where
  /-- No byte at all: there is nothing to decode. -/
  | noByte
  /-- The opcode byte has no row in the table (R59). -/
  | unrecognizedOpcode (code : Byte)
  /-- The list ends before the operand bytes the row calls for. Memory never ends, so a fetch never meets it. -/
  | truncated (code : Byte)
  /-- The row's pair is no row of `itabDefault`, so `Instr` has no constructor for it (only with another table;
  the table machine of Machine/TableMachine.lean runs such pairs). -/
  | noSuchForm (mnemonic : Mnemonic) (mode : Mode)
  deriving DecidableEq, Repr

/-- The operand bytes of a mode, taken from the front of the bytes after the opcode, low byte first (R50, R52). -/
def takeOperand : Mode → List Byte → Option (Operand × List Byte)
  | .noneAddressing, r => some (.none, r)
  | .absolute, lo :: hi :: r => some (.word (concatBytes hi lo), r)
  | .absoluteX, lo :: hi :: r => some (.word (concatBytes hi lo), r)
  | .absoluteY, lo :: hi :: r => some (.word (concatBytes hi lo), r)
  | .immediate, d :: r => some (.byte d, r)
  | .zeroPage, d :: r => some (.byte d, r)
  | .zeroPageX, d :: r => some (.byte d, r)
  | .zeroPageY, d :: r => some (.byte d, r)
  | .indirectX, d :: r => some (.byte d, r)
  | .indirectY, d :: r => some (.byte d, r)
  | _, _ => none

/-- The LDA of a mode and its operand; none for a mode that no LDA row of R58 has. -/
def Instr.ldaForm : Mode → Operand → Option Instr
  | .immediate, .byte d => some (.ldaImm d)
  | .zeroPage, .byte d => some (.ldaZp d)
  | .zeroPageX, .byte d => some (.ldaZpX d)
  | .absolute, .word w => some (.ldaAbs w)
  | .absoluteX, .word w => some (.ldaAbsX w)
  | .absoluteY, .word w => some (.ldaAbsY w)
  | .indirectX, .byte d => some (.ldaIndX d)
  | .indirectY, .byte d => some (.ldaIndY d)
  | _, _ => none

/-- The STA of a mode and its operand; none for a mode that no STA row of R58 has. -/
def Instr.staForm : Mode → Operand → Option Instr
  | .zeroPage, .byte d => some (.staZp d)
  | .zeroPageX, .byte d => some (.staZpX d)
  | .absolute, .word w => some (.staAbs w)
  | .absoluteX, .word w => some (.staAbsX w)
  | .absoluteY, .word w => some (.staAbsY w)
  | .indirectX, .byte d => some (.staIndX d)
  | .indirectY, .byte d => some (.staIndY d)
  | _, _ => none

/-- The AND of a mode and its operand; none for a mode that no AND row of R58 has. -/
def Instr.andForm : Mode → Operand → Option Instr
  | .immediate, .byte d => some (.andImm d)
  | .zeroPage, .byte d => some (.andZp d)
  | .zeroPageX, .byte d => some (.andZpX d)
  | .absolute, .word w => some (.andAbs w)
  | .absoluteX, .word w => some (.andAbsX w)
  | .absoluteY, .word w => some (.andAbsY w)
  | .indirectX, .byte d => some (.andIndX d)
  | .indirectY, .byte d => some (.andIndY d)
  | _, _ => none

/-- The instruction without operand of TAX, INX and BRK; none for a mode other than NoneAddressing (R58). -/
def Instr.impliedForm (i : Instr) : Mode → Operand → Option Instr
  | .noneAddressing, .none => some i
  | _, _ => none

/-- The instruction of a (mnemonic, mode) pair and its operand; none for a pair that no row of R58 has. -/
def Instr.ofForm (mnemonic : Mnemonic) (mode : Mode) (o : Operand) : Option Instr :=
  match mnemonic with
  | .lda => Instr.ldaForm mode o
  | .sta => Instr.staForm mode o
  | .and => Instr.andForm mode o
  | .tax => Instr.impliedForm .tax mode o
  | .inx => Instr.impliedForm .inx mode o
  | .brk => Instr.impliedForm .brk mode o

/-- Decoding with a table as argument (R53, R55, R73): the instruction at the front of the bytes and the rest. -/
def decodeWith (tab : ITab) : List Byte → Except DecodeError (Instr × List Byte)
  | [] => .error .noByte
  | op :: rest =>
    match tab.lookup op with
    | none => .error (.unrecognizedOpcode op)
    | some d =>
      match takeOperand d.mode rest with
      | none => .error (.truncated op)
      | some (o, rest') =>
        match Instr.ofForm d.mnemonic d.mode o with
        | none => .error (.noSuchForm d.mnemonic d.mode)
        | some i => .ok (i, rest')

/-- The decoder of this hardware: `decodeWith` at `ITAB_DEFAULT`. -/
def decode (bytes : List Byte) : Except DecodeError (Instr × List Byte) :=
  decodeWith itabDefault bytes

/-- Byte `k` of an instruction whose bits are `w` and which the table gives `nbits` bits; bits above are 0. -/
def tableByte (nbits w k : Nat) : Byte :=
  BitVec.ofNat 8 ((w % 2 ^ nbits) / 2 ^ (8 * k))

/-- The three bytes (the longest instruction, R50) of a table word, in the order they stand in memory. -/
def tableBytes (nbits w : Nat) : List Byte :=
  [tableByte nbits w 0, tableByte nbits w 1, tableByte nbits w 2]

/-- The instruction the decoder reads from a word of spec/opcode_table.json, bit 0 the least significant bit of the
opcode byte (R50: the opcode byte is `ins[7:0]`). -/
def decodeTableWord (nbits w : Nat) : Option Instr :=
  match decode (tableBytes nbits w) with
  | .ok (i, _) => some i
  | .error _ => none

/-! ## The encoder -/

/-- The opcode byte of an instruction, from spec/opcode_table.json row by row. -/
def Instr.opcode : Instr → Byte
  | .ldaImm _ => 0xA9
  | .ldaZp _ => 0xA5
  | .ldaZpX _ => 0xB5
  | .ldaAbs _ => 0xAD
  | .ldaAbsX _ => 0xBD
  | .ldaAbsY _ => 0xB9
  | .ldaIndX _ => 0xA1
  | .ldaIndY _ => 0xB1
  | .staZp _ => 0x85
  | .staZpX _ => 0x95
  | .staAbs _ => 0x8D
  | .staAbsX _ => 0x9D
  | .staAbsY _ => 0x99
  | .staIndX _ => 0x81
  | .staIndY _ => 0x91
  | .andImm _ => 0x29
  | .andZp _ => 0x25
  | .andZpX _ => 0x35
  | .andAbs _ => 0x2D
  | .andAbsX _ => 0x3D
  | .andAbsY _ => 0x39
  | .andIndX _ => 0x21
  | .andIndY _ => 0x31
  | .tax => 0xAA
  | .inx => 0xE8
  | .brk => 0x00

/-- The operand bytes in memory order, low byte first (R50). -/
def Operand.bytes : Operand → List Byte
  | .none => []
  | .byte d8 => [d8]
  | .word a16 => [lowByte a16, highByte a16]

/-- The bytes of an instruction in memory order (R50). -/
def encode (i : Instr) : List Byte := i.opcode :: i.operand.bytes

/-- The opcode a table gives a (mnemonic, mode) pair, or none: R55 read backwards. -/
def ITab.opcodeOf (tab : ITab) (m : Mnemonic) (md : Mode) : Option Byte :=
  (tab.find? fun d => d.mnemonic == m && d.mode == md).map Descriptor.opcode

/-- Encoding with a table as argument; none where the table has no row for the instruction's form. -/
def encodeWith (tab : ITab) (i : Instr) : Option (List Byte) :=
  (tab.opcodeOf i.mnemonic i.mode).map (· :: i.operand.bytes)

/-- The length of an instruction in bytes, the opcode byte included (R50). -/
def Instr.length (i : Instr) : Nat := (encode i).length

end Sys2Proof
end

