-- ==== Sys2Proof/Machine/State.lean ====
section
/-! DEFINITION. The state of the machine, plain data: the tuple `(A, X, Y, SP, P, pc, M, ls, fr)` of 10_state.md section 1,
its value at power-on and right after reset, and the reasons a step of the model can stop. -/

namespace Sys2Proof.Machine

/-- The status register `P`: eight independent one-bit flags (10_state.md R13), in the order of R14's list. The packed
byte, which only the inspection port shows, is `Flags.toByte`. Bit positions PRESUMED by the spec (D1): log entry 7. -/
structure Flags where
  carry : Bool
  zero : Bool
  interruptDisable : Bool
  decimalMode : Bool
  breakFlag : Bool
  break2 : Bool
  overflow : Bool
  negative : Bool
  deriving DecidableEq, Repr

/-- The six values of the lifecycle state `ls` (R18). -/
inductive Lifecycle where
  | unloaded | loaded | ready | running | halted | faulted
  deriving DecidableEq, Repr

/-- What the fault record `fr` holds when it is not `none` (R19). -/
inductive FaultRecord where
  /-- Raised by the decoder; `pc` is the address of the offending byte (60_exceptions.md R171). -/
  | unrecognizedOpcode (code : Byte) (pc : Word)
  /-- Raised by the resolver, only with an ill-formed table (R172). -/
  | invalidAddressingRequest
  deriving DecidableEq, Repr

/-- Memory (20_memory.md R30) as the list of the cells that do not read 0x00, addresses strictly rising. -/
abbrev Memory := List Host.Cell

/-- The canonical form of a memory: addresses strictly rising and below `MEM_SIZE`, no entry equal to what an unlisted
address reads as (0x00: R32), so that equal memories are equal lists. -/
abbrev Memory.wf (m : Memory) : Prop :=
  m.Pairwise (fun c d => c.1 < d.1) ∧ ∀ c ∈ m, c.1 < 0x10000 ∧ c.2 ≠ 0

/-- The machine's state (10_state.md section 1). `pc_we` is no part of it (R21): log entry 13. -/
structure State where
  /-- The accumulator `A` (R10). -/
  a : Byte
  /-- The index register `X` (R10). -/
  x : Byte
  /-- The index register `Y` (R10). -/
  y : Byte
  /-- The reserved stack pointer `SP` (R11). -/
  sp : Byte
  /-- The status register `P` (R13). -/
  p : Flags
  /-- The program counter (R12). -/
  pc : Word
  /-- The memory `M` (20_memory.md R30). -/
  mem : Memory
  /-- The lifecycle state `ls` (R18). -/
  ls : Lifecycle
  /-- The fault record `fr` (R19). -/
  fr : Option FaultRecord
  deriving DecidableEq, Repr

/-- The reasons a step stops with a fault. The spec's own errors are NEXT states (`ls = Faulted` with a record: R171,
R172), so this is only the step asked of a machine that has stopped for good. -/
inductive Fault where
  /-- Raised by `step` when `ls = Faulted`: no step is enabled there (60_exceptions.md R175), and the command is refused
  with no change (70_reset_and_hazards.md R205). The record is in the state. Safe: log entry 11. -/
  | machineFaulted
  deriving DecidableEq, Repr

/-- The reasons an instruction has no meaning. No arm of `exec` uses one: every row of the table is modelled. -/
inductive Refusal where
  /-- Raised by an arm of `exec` for an instruction without a meaning, by its mnemonic. Safe. -/
  | notModelled (mnemonic : String)
  deriving DecidableEq, Repr

/-- All eight flags clear: `P = 0x00` (R24). -/
def Flags.clear : Flags := ⟨false, false, false, false, false, false, false, false⟩

/-- The machine at power-on (70_reset_and_hazards.md R200, 10_state.md R24). -/
def State.powerOn : State :=
  { a := 0x00, x := 0x00, y := 0x00, sp := 0x00, p := Flags.clear, pc := 0x0000, mem := [], ls := .unloaded, fr := none }

/-- The machine right after `reset()` on a machine just powered on (R24, R202): `pc` is the word at 0xFFFC, which is
0x0000 in zeroed memory. DEDUCED, safe: log entry 3; how a program comes to run from it: log entry 2. -/
def State.reset : State :=
  { a := 0x00, x := 0x00, y := 0x00, sp := 0x00, p := Flags.clear, pc := 0x0000, mem := [], ls := .ready, fr := none }

end Sys2Proof.Machine
end

