-- ==== Sys2Proof/Machine/Flags.lean ====
section
/-! DEFINITION. The flag computations: the derivation of Zero and Negative (10_state.md R16), the carry port (R20) and the
packed byte of the inspection port (R14). -/

namespace Sys2Proof.Machine

/-- `SetZN(r)` (R16): Zero from `r == 0x00`, Negative from `r[7]`; no other flag. -/
def Flags.setZN (p : Flags) (r : Byte) : Flags :=
  { p with zero := decide (r = 0x00), negative := r.getLsbD 7 }

/-- `setCarry()` (R20). No in-scope instruction or command drives this port. -/
def Flags.setCarry (p : Flags) : Flags := { p with carry := true }

/-- `clearCarry()` (R20). No in-scope instruction or command drives this port. -/
def Flags.clearCarry (p : Flags) : Flags := { p with carry := false }

/-- The packed byte `P[7:0]`, Carry at bit 0 to Negative at bit 7 (R14). PRESUMED by the spec (D1): log entry 7. -/
def Flags.toByte (p : Flags) : Byte :=
  BitVec.ofBool p.negative ++ BitVec.ofBool p.overflow ++ BitVec.ofBool p.break2 ++ BitVec.ofBool p.breakFlag ++
    BitVec.ofBool p.decimalMode ++ BitVec.ofBool p.interruptDisable ++ BitVec.ofBool p.zero ++ BitVec.ofBool p.carry

/-- The flags of a packed byte (R14). -/
def Flags.ofByte (v : Byte) : Flags :=
  { carry := v.getLsbD 0, zero := v.getLsbD 1, interruptDisable := v.getLsbD 2, decimalMode := v.getLsbD 3,
    breakFlag := v.getLsbD 4, break2 := v.getLsbD 5, overflow := v.getLsbD 6, negative := v.getLsbD 7 }

end Sys2Proof.Machine
end

