-- ==== Sys2Proof/Machine/Ops.lean ====
section
/-! DEFINITION. The named operations over memory, registers, the fault record and the lifecycle state: the primitives of
00_scope.md R5 but for `EA`, which is in Operands.lean. -/

namespace Sys2Proof.Machine

/-! ## Memory (20_memory.md) -/

/-- What a cell that nothing has written reads as: zero (R32, R200). -/
def unlistedByte : Byte := 0x00

/-- The byte of the cell at an address. -/
def readCell : Memory → Nat → Byte
  | [], _ => unlistedByte
  | (k, v) :: m, a => if k = a then v else readCell m a

/-- The memory with one cell written, in canonical form. -/
def writeCell : Memory → Nat → Byte → Memory
  | [], a, v => if v = unlistedByte then [] else [(a, v)]
  | (k, w) :: m, a, v =>
    if a < k then (if v = unlistedByte then (k, w) :: m else (a, v) :: (k, w) :: m)
    else if a = k then (if v = unlistedByte then m else (a, v) :: m)
    else (k, w) :: writeCell m a v

/-- `MemRead(a, 1)` (R32). -/
def State.read (s : State) (a : Word) : Byte := readCell s.mem a.toNat

/-- `MemRead(a, 2)`: low byte at `a`, high byte at `a +16 1` (R34). The wrap at 0xFFFF is D14: log entry 9. -/
def State.readWord (s : State) (a : Word) : Word := concatBytes (s.read (a + 1)) (s.read a)

/-- `MemWrite(a, 1, v)` (R33). -/
def State.write (s : State) (a : Word) (v : Byte) : State := { s with mem := writeCell s.mem a.toNat v }

/-- `MemWrite(a, 2, v)`: `v[7:0]` at `a`, then `v[15:8]` at `a +16 1` (R35). -/
def State.writeWord (s : State) (a : Word) (v : Word) : State := (s.write a (lowByte v)).write (a + 1) (highByte v)

/-- The bytes written one after another from an address upwards. -/
def State.writeBytes : List Byte → Word → State → State
  | [], _, s => s
  | v :: vs, a, s => State.writeBytes vs (a + 1) (s.write a v)

/-- `loadImage(bytes, baseAddr)` (R44): rejected, with nothing written, when the image would pass the end of memory. -/
def State.loadImage (s : State) (bytes : List Byte) (base : Word) : Option State :=
  if base.toNat + bytes.length ≤ Config.memSize then some (State.writeBytes bytes base s) else none

/-! ## Registers, `pc`, `ls` -/

/-- `SetA(v)`: the accumulator setter, Zero and Negative from the new value (10_state.md R17). -/
def State.setA (s : State) (v : Byte) : State := { s with a := v, p := s.p.setZN v }

/-- `x[X] <- v` and `SetZN(v)`, the write of TAX and INX (44_transfer_increment.md R155, R156). -/
def State.setX (s : State) (v : Byte) : State := { s with x := v, p := s.p.setZN v }

/-- `pc <- t` (R5). -/
def State.setPc (s : State) (t : Word) : State := { s with pc := t }

/-- `ls <- l` (10_state.md R18). -/
def State.setLs (s : State) (l : Lifecycle) : State := { s with ls := l }

/-! ## Taking a fault, and leaving it (60_exceptions.md) -/

/-- `raise` (R171, R172, R175): the record is written and `ls` becomes Faulted; nothing else is saved, no mode or
register changes, and control goes nowhere. -/
def State.raise (s : State) (r : FaultRecord) : State := { s with fr := some r, ls := .faulted }

/-- The clearing of the fault record that `reset` and `load` perform (R177). There is no return-from-fault
instruction: only those two commands leave Faulted. -/
def State.clearFault (s : State) : State := { s with fr := none }

/-! ## The inspection port (10_state.md R23) -/

/-- The lines of the inspection port: not `SP`. -/
structure Inspection where
  a : Byte
  x : Byte
  y : Byte
  pc : Word
  p : Byte
  ls : Lifecycle
  fr : Option FaultRecord
  deriving DecidableEq, Repr

/-- The values of those lines: `P` packed (R14), `ls` and `fr` added by the spec. -/
def State.shown (s : State) : Inspection :=
  { a := s.a, x := s.x, y := s.y, pc := s.pc, p := s.p.toByte, ls := s.ls, fr := s.fr }

/-- What the host sees at the port: nothing while `ls` is Running (70_reset_and_hazards.md R207).
DESIGN CHOICE of the spec (D24): log entry 17. -/
def State.inspect (s : State) : Option Inspection := if s.ls = .running then none else some s.shown

end Sys2Proof.Machine
end

