-- ==== Sys2Proof/Machine/Operands.lean ====
section
/-! DEFINITION. The addressing-mode resolver (41_addressing_modes.md): the address each mode computes from its operand, and
`EA(mode)`, which reads the operand bytes at `pc`, the address of the first operand byte. -/

namespace Sys2Proof.Machine

/-- `INDY_READING`, default `canonical` (00_scope.md R3, 41_addressing_modes.md R99). PRESUMED by the spec (D8): log entry 6. -/
def indyReading : IndyReading := .canonical

/-- The ZeroPage address of an operand byte (R92). -/
def zeroPageAddr (d8 : Byte) : Word := zext16 d8

/-- The ZeroPageX and ZeroPageY address: the sum wraps at 8 bits (R93, R94). -/
def zeroPageIndexedAddr (d8 index : Byte) : Word := zext16 (d8 + index)

/-- The AbsoluteX and AbsoluteY address: the sum wraps at 16 bits (R96, R97). -/
def absoluteIndexedAddr (a16 : Word) (index : Byte) : Word := a16 + zext16 index

/-- The 16-bit pointer at a page-zero address, its high byte wrapping inside page zero (R98, R99). -/
def State.zeroPagePointer (s : State) (p : Byte) : Word := concatBytes (s.read (zext16 (p + 1))) (s.read (zext16 p))

/-- The IndirectX address: `X` is added before the dereference (R98). -/
def State.indirectXAddr (s : State) (d8 : Byte) : Word := s.zeroPagePointer (d8 + s.x)

/-- The IndirectY address under each reading (R99). -/
def State.indirectYAddr (s : State) (reading : IndyReading) (d8 : Byte) : Word :=
  match reading with
  | .canonical => s.zeroPagePointer d8 + zext16 s.y
  | .literalPre => s.zeroPagePointer (d8 + s.y)
  | .lowByteWrap => concatBytes (s.read (zext16 (d8 + 1))) (s.read (zext16 d8) + s.y)

/-- `EA(mode)` (R90): a function of the mode, `pc`, `X`, `Y` and memory; none is the InvalidAddressingRequest of R100. -/
def State.effectiveAddress (s : State) (reading : IndyReading) (mode : Mode) : Option Word :=
  match mode with
  | .immediate => some s.pc
  | .zeroPage => some (zeroPageAddr (s.read s.pc))
  | .zeroPageX => some (zeroPageIndexedAddr (s.read s.pc) s.x)
  | .zeroPageY => some (zeroPageIndexedAddr (s.read s.pc) s.y)
  | .absolute => some (s.readWord s.pc)
  | .absoluteX => some (absoluteIndexedAddr (s.readWord s.pc) s.x)
  | .absoluteY => some (absoluteIndexedAddr (s.readWord s.pc) s.y)
  | .indirectX => some (s.indirectXAddr (s.read s.pc))
  | .indirectY => some (s.indirectYAddr reading (s.read s.pc))
  | .noneAddressing => none

end Sys2Proof.Machine
end

