-- ==== Sys2Proof/Machine/Handlers.lean ====
section
/-! DEFINITION. The handlers of the six mnemonics, their dispatch on (mnemonic, mode) (40_fetch_decode_pc.md R74) and the
program-counter multiplexer (R75 to R77). In every handler `pc` is the address of the first operand byte (R72). -/

namespace Sys2Proof.Machine

/-- How a handler ends: it returns, with the write-enable `pc_we` that says whether it wrote `pc` (R76; a bit inside
the step, 10_state.md R21), or the step ends at once (the halt, or a raise). DESIGN CHOICE (D7): log entry 13. -/
inductive HandlerResult where
  | returned (s : State) (pcWe : Bool)
  | ended (s : State)
  deriving DecidableEq, Repr

/-- The reserved control-flow capability: a handler's `pc <- t` sets `pc_we` (R76). No in-scope handler uses it. -/
def handlerWritePc (t : Word) (s : State) : HandlerResult := .returned (s.setPc t) true

/-- The PCMUX after the handler: the length advance if `pc_we = 0` (R77), nothing when the step has ended. -/
def pcMux (length : Nat) : HandlerResult → State
  | .returned s true => s
  | .returned s false => s.setPc (s.pc + BitVec.ofNat 16 (length - 1))
  | .ended s => s

/-- LDA once its byte is read: `SetA(v)` (42_load_store.md R110). -/
def loadByte (v : Byte) (s : State) : HandlerResult := .returned (s.setA (aluPass v)) false

/-- STA once its address is known: `MemWrite(ea, 1, x[A])` (R120). -/
def storeAt (ea : Word) (s : State) : HandlerResult := .returned (s.write ea s.a) false

/-- AND once its byte is read: `SetA(x[A] & v)` (43_logical.md R141). -/
def andByte (v : Byte) (s : State) : HandlerResult := .returned (s.setA (aluAnd s.a v)) false

/-- `H_TAX()` (44_transfer_increment.md R155). -/
def handleTax (s : State) : HandlerResult := .returned (s.setX (aluPass s.a)) false

/-- `H_INX()` (R156). -/
def handleInx (s : State) : HandlerResult := .returned (s.setX (aluInc s.x)) false

/-- `H_BRK()`: `ls <- Halted`, and the step ends (45_halt.md R165). -/
def handleBrk (s : State) : HandlerResult := .ended (s.setLs .halted)

/-- A handler body at the effective address of a mode; the raise of R172 where the mode has none. -/
def withAddress (reading : IndyReading) (mode : Mode) (s : State) (body : Word → HandlerResult) : HandlerResult :=
  match s.effectiveAddress reading mode with
  | some ea => body ea
  | none => .ended (s.raise .invalidAddressingRequest)

/-- `H_LDA(mode)` (42_load_store.md R110). -/
def handleLda (reading : IndyReading) (mode : Mode) (s : State) : HandlerResult :=
  withAddress reading mode s fun ea => loadByte (s.read ea) s

/-- `H_STA(mode)` (R120). -/
def handleSta (reading : IndyReading) (mode : Mode) (s : State) : HandlerResult :=
  withAddress reading mode s fun ea => storeAt ea s

/-- `H_AND(mode)` (43_logical.md R141). -/
def handleAnd (reading : IndyReading) (mode : Mode) (s : State) : HandlerResult :=
  withAddress reading mode s fun ea => andByte (s.read ea) s

/-- `Dispatch(mnemonic, mode)` (40_fetch_decode_pc.md R74): total over all sixty pairs (D23). -/
def dispatch (reading : IndyReading) (mnemonic : Mnemonic) (mode : Mode) (s : State) : HandlerResult :=
  match mnemonic with
  | .lda => handleLda reading mode s
  | .sta => handleSta reading mode s
  | .and => handleAnd reading mode s
  | .tax => handleTax s
  | .inx => handleInx s
  | .brk => handleBrk s

end Sys2Proof.Machine
end

