-- ==== Sys2Proof/Machine/Halt.lean ====
section
/-! DEFINITION. The meaning of BRK (45_halt.md). It is only a halt: no stack, no vector, no flag (R166). -/

namespace Sys2Proof.Machine

/-- BRK (R165): the step ends, so there is no length advance. Its length is D6: log entry 21. -/
def execBrk (s : State) : Host.Outcome State Fault Refusal :=
  .next (pcMux 1 (handleBrk s))

end Sys2Proof.Machine
end

