-- ==== Sys2Proof/Machine/LoadStore.lean ====
section
/-! DEFINITION. The meanings of LDA and STA, one for each row (42_load_store.md). In every meaning `s.pc` is the address of the first
operand byte; the PCMUX then moves it past the operand (40_fetch_decode_pc.md R77). -/

namespace Sys2Proof.Machine

/-! ## LDA (R110) -/

/-- LDA Immediate (R111): the operand byte is the data byte, its own location being the effective address R91. -/
def execLdaImm (d8 : Byte) (s : State) : Host.Outcome State Fault Refusal :=
  .next (pcMux 2 (loadByte d8 s))

/-- LDA ZeroPage (R112). -/
def execLdaZp (d8 : Byte) (s : State) : Host.Outcome State Fault Refusal :=
  .next (pcMux 2 (loadByte (s.read (zeroPageAddr d8)) s))

/-- LDA ZeroPageX (R113). -/
def execLdaZpX (d8 : Byte) (s : State) : Host.Outcome State Fault Refusal :=
  .next (pcMux 2 (loadByte (s.read (zeroPageIndexedAddr d8 s.x)) s))

/-- LDA Absolute (R114). -/
def execLdaAbs (a16 : Word) (s : State) : Host.Outcome State Fault Refusal :=
  .next (pcMux 3 (loadByte (s.read a16) s))

/-- LDA AbsoluteX (R115). -/
def execLdaAbsX (a16 : Word) (s : State) : Host.Outcome State Fault Refusal :=
  .next (pcMux 3 (loadByte (s.read (absoluteIndexedAddr a16 s.x)) s))

/-- LDA AbsoluteY (R116). -/
def execLdaAbsY (a16 : Word) (s : State) : Host.Outcome State Fault Refusal :=
  .next (pcMux 3 (loadByte (s.read (absoluteIndexedAddr a16 s.y)) s))

/-- LDA IndirectX (R117). -/
def execLdaIndX (d8 : Byte) (s : State) : Host.Outcome State Fault Refusal :=
  .next (pcMux 2 (loadByte (s.read (s.indirectXAddr d8)) s))

/-- LDA IndirectY (R118). -/
def execLdaIndY (d8 : Byte) (s : State) : Host.Outcome State Fault Refusal :=
  .next (pcMux 2 (loadByte (s.read (s.indirectYAddr indyReading d8)) s))

/-! ## STA (R120) -/

/-- STA ZeroPage (R121). -/
def execStaZp (d8 : Byte) (s : State) : Host.Outcome State Fault Refusal :=
  .next (pcMux 2 (storeAt (zeroPageAddr d8) s))

/-- STA ZeroPageX (R122). -/
def execStaZpX (d8 : Byte) (s : State) : Host.Outcome State Fault Refusal :=
  .next (pcMux 2 (storeAt (zeroPageIndexedAddr d8 s.x) s))

/-- STA Absolute (R123). -/
def execStaAbs (a16 : Word) (s : State) : Host.Outcome State Fault Refusal :=
  .next (pcMux 3 (storeAt a16 s))

/-- STA AbsoluteX (R124). -/
def execStaAbsX (a16 : Word) (s : State) : Host.Outcome State Fault Refusal :=
  .next (pcMux 3 (storeAt (absoluteIndexedAddr a16 s.x) s))

/-- STA AbsoluteY (R125). -/
def execStaAbsY (a16 : Word) (s : State) : Host.Outcome State Fault Refusal :=
  .next (pcMux 3 (storeAt (absoluteIndexedAddr a16 s.y) s))

/-- STA IndirectX (R126). -/
def execStaIndX (d8 : Byte) (s : State) : Host.Outcome State Fault Refusal :=
  .next (pcMux 2 (storeAt (s.indirectXAddr d8) s))

/-- STA IndirectY (R127). -/
def execStaIndY (d8 : Byte) (s : State) : Host.Outcome State Fault Refusal :=
  .next (pcMux 2 (storeAt (s.indirectYAddr indyReading d8) s))

end Sys2Proof.Machine
end

