-- ==== Sys2Proof/Machine/Logical.lean ====
section
/-! DEFINITION. The meanings of AND, one for each row (43_logical.md R141). `s.pc` is the address of the first operand byte. -/

namespace Sys2Proof.Machine

/-- AND Immediate (R142): the operand byte is the data byte, its own location being the effective address R91. -/
def execAndImm (d8 : Byte) (s : State) : Host.Outcome State Fault Refusal :=
  .next (pcMux 2 (andByte d8 s))

/-- AND ZeroPage (R143). -/
def execAndZp (d8 : Byte) (s : State) : Host.Outcome State Fault Refusal :=
  .next (pcMux 2 (andByte (s.read (zeroPageAddr d8)) s))

/-- AND ZeroPageX (R144). -/
def execAndZpX (d8 : Byte) (s : State) : Host.Outcome State Fault Refusal :=
  .next (pcMux 2 (andByte (s.read (zeroPageIndexedAddr d8 s.x)) s))

/-- AND Absolute (R145). -/
def execAndAbs (a16 : Word) (s : State) : Host.Outcome State Fault Refusal :=
  .next (pcMux 3 (andByte (s.read a16) s))

/-- AND AbsoluteX (R146). -/
def execAndAbsX (a16 : Word) (s : State) : Host.Outcome State Fault Refusal :=
  .next (pcMux 3 (andByte (s.read (absoluteIndexedAddr a16 s.x)) s))

/-- AND AbsoluteY (R147). -/
def execAndAbsY (a16 : Word) (s : State) : Host.Outcome State Fault Refusal :=
  .next (pcMux 3 (andByte (s.read (absoluteIndexedAddr a16 s.y)) s))

/-- AND IndirectX (R148). -/
def execAndIndX (d8 : Byte) (s : State) : Host.Outcome State Fault Refusal :=
  .next (pcMux 2 (andByte (s.read (s.indirectXAddr d8)) s))

/-- AND IndirectY (R149). -/
def execAndIndY (d8 : Byte) (s : State) : Host.Outcome State Fault Refusal :=
  .next (pcMux 2 (andByte (s.read (s.indirectYAddr indyReading d8)) s))

end Sys2Proof.Machine
end

