-- ==== Sys2Proof/Machine/TransferIncrement.lean ====
section
/-! DEFINITION. The meanings of TAX and INX (44_transfer_increment.md). They read no operand. -/

namespace Sys2Proof.Machine

/-- TAX (R155). -/
def execTax (s : State) : Host.Outcome State Fault Refusal :=
  .next (pcMux 1 (handleTax s))

/-- INX (R156). -/
def execInx (s : State) : Host.Outcome State Fault Refusal :=
  .next (pcMux 1 (handleInx s))

end Sys2Proof.Machine
end

