-- ==== Sys2Proof/Machine/Dispatch.lean ====
section
/-! DEFINITION. The dispatch of an instruction to its meaning, one arm for each constructor. -/

namespace Sys2Proof.Machine

/-- The meaning of an instruction, from the state after the fetch and the advance past the opcode (40_fetch_decode_pc.md
R72, R74): `s.pc` is the address of the first operand byte. -/
def exec (i : Instr) (s : State) : Host.Outcome State Fault Refusal :=
  match i with
  | .ldaImm d8 => Sys2Proof.Machine.execLdaImm d8 s
  | .ldaZp d8 => Sys2Proof.Machine.execLdaZp d8 s
  | .ldaZpX d8 => Sys2Proof.Machine.execLdaZpX d8 s
  | .ldaAbs a16 => Sys2Proof.Machine.execLdaAbs a16 s
  | .ldaAbsX a16 => Sys2Proof.Machine.execLdaAbsX a16 s
  | .ldaAbsY a16 => Sys2Proof.Machine.execLdaAbsY a16 s
  | .ldaIndX d8 => Sys2Proof.Machine.execLdaIndX d8 s
  | .ldaIndY d8 => Sys2Proof.Machine.execLdaIndY d8 s
  | .staZp d8 => Sys2Proof.Machine.execStaZp d8 s
  | .staZpX d8 => Sys2Proof.Machine.execStaZpX d8 s
  | .staAbs a16 => Sys2Proof.Machine.execStaAbs a16 s
  | .staAbsX a16 => Sys2Proof.Machine.execStaAbsX a16 s
  | .staAbsY a16 => Sys2Proof.Machine.execStaAbsY a16 s
  | .staIndX d8 => Sys2Proof.Machine.execStaIndX d8 s
  | .staIndY d8 => Sys2Proof.Machine.execStaIndY d8 s
  | .andImm d8 => Sys2Proof.Machine.execAndImm d8 s
  | .andZp d8 => Sys2Proof.Machine.execAndZp d8 s
  | .andZpX d8 => Sys2Proof.Machine.execAndZpX d8 s
  | .andAbs a16 => Sys2Proof.Machine.execAndAbs a16 s
  | .andAbsX a16 => Sys2Proof.Machine.execAndAbsX a16 s
  | .andAbsY a16 => Sys2Proof.Machine.execAndAbsY a16 s
  | .andIndX d8 => Sys2Proof.Machine.execAndIndX d8 s
  | .andIndY d8 => Sys2Proof.Machine.execAndIndY d8 s
  | .tax => Sys2Proof.Machine.execTax s
  | .inx => Sys2Proof.Machine.execInx s
  | .brk => Sys2Proof.Machine.execBrk s

end Sys2Proof.Machine
end

