-- ==== Sys2Proof/Machine/Fetch.lean ====
section
/-! DEFINITION. The instruction fetch unit (40_fetch_decode_pc.md R70 to R72). -/

namespace Sys2Proof.Machine

/-- The opcode fetch: the byte at `pc` (R70). It cannot fail. -/
def State.opcodeByte (s : State) : Byte := s.read s.pc

/-- The advance past the opcode: `pc <- opaddr +16 1` (R72). -/
def State.advance (s : State) : State := s.setPc (s.pc + 1)

/-- The bytes the decoder is given: the opcode byte and the two bytes after it, as many as the longest instruction has
(R50). A read has no side effect, so those an instruction does not use are not observed. DEDUCED, safe: log entry 8. -/
def State.fetchBytes (s : State) : List Byte := [s.read s.pc, s.read (s.pc + 1), s.read (s.pc + 2)]

end Sys2Proof.Machine
end

