-- ==== Sys2Proof/Machine/Lifecycle.lean ====
section
/-! DEFINITION. One instruction of the machine (40_fetch_decode_pc.md R78), the step by lifecycle state
(70_reset_and_hazards.md R203 to R205), and the host's commands (R200 to R207). -/

namespace Sys2Proof.Machine

/-! ## One instruction -/

/-- `Step()` of R78: fetch, advance, decode, meaning. A byte that decodes to nothing raises UnrecognizedOpcode with the
address it was fetched from (60_exceptions.md R171): a NEXT state. DESIGN CHOICE (D9), unsafe: log entry 10. -/
def runInstruction (s : State) : Host.Outcome State Fault Refusal :=
  match decode s.fetchBytes with
  | .ok (i, _) => exec i s.advance
  | .error _ => .next (s.advance.raise (.unrecognizedOpcode s.opcodeByte s.pc))

/-- The outcome with a function applied to its next state. -/
def mapNext (f : State → State) : Host.Outcome State Fault Refusal → Host.Outcome State Fault Refusal
  | .next t => .next (f t)
  | .fault r => .fault r
  | .refused r => .refused r

/-- `if ls == Running: ls <- Ready`, the end of the single-step command (R204). -/
def State.settle (s : State) : State := if s.ls = .running then s.setLs .ready else s

/-- A step by lifecycle state (R205): the internal step in Running, the single-step command of R204 in the four stopped
states that accept it, and the stop in Faulted. DESIGN CHOICE: log entries 1, 11, 12. -/
def lifecycleStep (body : State → Host.Outcome State Fault Refusal) (s : State) : Host.Outcome State Fault Refusal :=
  match s.ls with
  | .running => body s
  | .unloaded => mapNext State.settle (body (s.setLs .running))
  | .loaded => mapNext State.settle (body (s.setLs .running))
  | .ready => mapNext State.settle (body (s.setLs .running))
  | .halted => mapNext State.settle (body (s.setLs .running))
  | .faulted => .fault .machineFaulted

/-- The step of the machine: `lifecycleStep` of `runInstruction`. -/
def machineStep (s : State) : Host.Outcome State Fault Refusal := lifecycleStep runInstruction s

/-! ## The host's commands (10_state.md R23). Power-on, `new()`, is `State.powerOn`. -/

/-- What a command reports to the host. DESIGN CHOICE, safe: log entry 17. -/
inductive Reply where
  /-- `load` or `reset` or `memory.write` accepted. -/
  | done
  /-- The byte `memory.read` returns. -/
  | byte (v : Byte)
  /-- What the inspection port shows (R207). -/
  | inspected (v : Inspection)
  /-- `step` ended with `ls = Ready` (R204). -/
  | continuing
  /-- `run` or `step` ended in Halted: success (R203). -/
  | halted
  /-- `run` or `step` ended in Faulted, with the fault record (R203). -/
  | faulted (fr : Option FaultRecord)
  /-- `load` of an image that does not fit (60_exceptions.md R173). -/
  | imageOverflow
  /-- `run` or `step` in Faulted: refused, no change (R205). -/
  | refused
  /-- Any command in Running: not accepted (R205, R207). -/
  | notAccepted
  /-- The model's own: the fuel of `run` is spent and the machine still runs (log entry 18). -/
  | unfinished
  deriving DecidableEq, Repr

/-- The commands of the command port and the host's look at the inspection port (10_state.md R23). -/
inductive Command where
  | load (bytes : List Byte)
  | reset
  | run
  | step
  | loadAndRun (bytes : List Byte)
  | memoryRead (addr : Word)
  | memoryWrite (addr : Word) (v : Byte)
  | inspect
  deriving DecidableEq, Repr

/-- What `run` and `step` report of the state they end in (R203, R204). -/
def State.report (s : State) : Reply :=
  match s.ls with
  | .halted => .halted
  | .faulted => .faulted s.fr
  | .running => .unfinished
  | .unloaded => .continuing
  | .loaded => .continuing
  | .ready => .continuing

/-- `load(bytes)` (R201): the image at `PROGRAM_BASE`, then that address into the reset vector; no register. -/
def loadCommand (bytes : List Byte) (s : State) : State × Reply :=
  if s.ls = .running then (s, .notAccepted)
  else
    match s.loadImage bytes Config.programBase with
    | none => (s, .imageOverflow)
    | some t => (((t.writeWord Config.resetVector Config.programBase).clearFault).setLs .loaded, .done)

/-- `reset()` (R202) with `RESET_P` as argument: `SP` and memory are not written. -/
def resetWith (resetP : Byte) (s : State) : State :=
  { s with
    a := 0x00, x := 0x00, y := 0x00, p := Flags.ofByte resetP, pc := s.readWord Config.resetVector, fr := none, ls := .ready }

/-- `reset()` (R202), accepted when `ls` is not Running. -/
def resetCommand (s : State) : State × Reply :=
  if s.ls = .running then (s, .notAccepted) else (resetWith Config.resetP s, .done)

/-- The loop of `run()` (40_fetch_decode_pc.md R79) under fuel: at most so many instructions, while `ls` is Running. -/
def runLoop : Nat → State → State
  | 0, s => s
  | n + 1, s =>
    if s.ls = .running then
      match runInstruction s with
      | .next t => runLoop n t
      | .fault _ => s
      | .refused _ => s
    else s

/-- `run()` (R203, R205) under fuel. -/
def runCommand (fuel : Nat) (s : State) : State × Reply :=
  if s.ls = .running then (s, .notAccepted)
  else if s.ls = .faulted then (s, .refused)
  else
    let t := runLoop fuel (s.setLs .running)
    (t, t.report)

/-- `step()` (R204, R205). -/
def stepCommand (s : State) : State × Reply :=
  if s.ls = .running then (s, .notAccepted)
  else
    match machineStep s with
    | .next t => (t, t.report)
    | .fault _ => (s, .refused)
    | .refused _ => (s, .refused)

/-- `loadAndRun(bytes)` (R206): `load`, and if it is accepted `reset` and `run`. -/
def loadAndRunCommand (fuel : Nat) (bytes : List Byte) (s : State) : State × Reply :=
  let r := loadCommand bytes s
  if r.2 = .done then runCommand fuel (resetCommand r.1).1 else r

/-- `memory.read(addr)` by the host (R207). -/
def memoryReadCommand (addr : Word) (s : State) : State × Reply :=
  if s.ls = .running then (s, .notAccepted) else (s, .byte (s.read addr))

/-- `memory.write(addr, byte)` by the host (R207). -/
def memoryWriteCommand (addr : Word) (v : Byte) (s : State) : State × Reply :=
  if s.ls = .running then (s, .notAccepted) else (s.write addr v, .done)

/-- The host's inspection of the registers (R207): not possible in Running. -/
def inspectCommand (s : State) : State × Reply :=
  match s.inspect with
  | none => (s, .notAccepted)
  | some v => (s, .inspected v)

/-- A command performed on a state: the state it leaves and its reply. -/
def perform (fuel : Nat) (c : Command) (s : State) : State × Reply :=
  match c with
  | .load bytes => loadCommand bytes s
  | .reset => resetCommand s
  | .run => runCommand fuel s
  | .step => stepCommand s
  | .loadAndRun bytes => loadAndRunCommand fuel bytes s
  | .memoryRead addr => memoryReadCommand addr s
  | .memoryWrite addr v => memoryWriteCommand addr v s
  | .inspect => inspectCommand s

/-- The bytes of a table word stored at `pc` (the host's `memory.write`, R207), and a machine stopped in Faulted made
Ready again with no record, since no step is enabled there: what the next step needs to fetch that word. -/
def State.placeWord (s : State) (nbits w : Nat) : State :=
  let t := State.writeBytes (tableBytes nbits w) s.pc s
  if t.ls = .faulted then t.clearFault.setLs .ready else t

end Sys2Proof.Machine
end

