-- ==== Sys2Proof/Machine/Step.lean ====
section
/-! DEFINITION. The step function under its fixed name, and the placing of an instruction where it fetches the next one. -/

namespace Sys2Proof.Machine

/-- One step of the machine (40_fetch_decode_pc.md R78, 70_reset_and_hazards.md R204, R205): `machineStep`. -/
def step (s : State) : Host.Outcome State Fault Refusal := machineStep s

/-- The state with a table word stored where `step` fetches its next instruction: `State.placeWord`. Log entry 2. -/
def State.withFetchWord (s : State) (nbits w : Nat) : State := s.placeWord nbits w

end Sys2Proof.Machine
end

