-- ==== Sys2Proof/Machine/Assembly.lean ====
section
/-! DEFINITION. The notation of the spec's listings (30_encoding.md R60), as lists of characters. It is the 6502's
customary syntax, PRESUMED by the spec (D16), safe: log entry 21. No machine rule uses it. -/

namespace Sys2Proof.Machine

/-- The tag of a mnemonic (R54). -/
def tagChars : Mnemonic → List Char
  | .lda => ['L', 'D', 'A']
  | .sta => ['S', 'T', 'A']
  | .and => ['A', 'N', 'D']
  | .tax => ['T', 'A', 'X']
  | .inx => ['I', 'N', 'X']
  | .brk => ['B', 'R', 'K']

/-- One hexadecimal digit, in capitals. -/
def hexDigit (n : Nat) : Char := if n < 10 then Char.ofNat (48 + n) else Char.ofNat (55 + n)

/-- `$nn`. -/
def hexByte (v : Byte) : List Char := ['$', hexDigit (v.toNat / 16), hexDigit (v.toNat % 16)]

/-- `$nnnn`. -/
def hexWord (v : Word) : List Char :=
  ['$', hexDigit (v.toNat / 4096), hexDigit (v.toNat / 256 % 16), hexDigit (v.toNat / 16 % 16), hexDigit (v.toNat % 16)]

/-- The characters of an operand (R52, R60). -/
def operandChars : Operand → List Char
  | .none => []
  | .byte d8 => hexByte d8
  | .word a16 => hexWord a16

/-- A listing line's instruction in the syntax of its mode (R60). -/
def listing (i : Instr) : List Char :=
  let o := operandChars i.operand
  tagChars i.mnemonic ++
    match i.mode with
    | .noneAddressing => []
    | .immediate => [' ', '#'] ++ o
    | .zeroPage => ' ' :: o
    | .zeroPageX => ' ' :: o ++ [',', 'X']
    | .zeroPageY => ' ' :: o ++ [',', 'Y']
    | .absolute => ' ' :: o
    | .absoluteX => ' ' :: o ++ [',', 'X']
    | .absoluteY => ' ' :: o ++ [',', 'Y']
    | .indirectX => [' ', '('] ++ o ++ [',', 'X', ')']
    | .indirectY => [' ', '('] ++ o ++ [')', ',', 'Y']

end Sys2Proof.Machine
end

