-- ==== Sys2Proof/Machine/TableMachine.lean ====
section
/-! DEFINITION. The machine with its open parameters as arguments (00_scope.md R3): any instruction table, any reading of
IndirectY, any `RESET_P`. It decodes to a descriptor and dispatches on (mnemonic, mode), reading operands at `pc`, as
40_fetch_decode_pc.md R73, R74 and R78 are written; the fixed-name `step` is this machine at the defaults. -/

namespace Sys2Proof.Machine

/-- The parameters marked "argument" in R3. -/
structure Params where
  itab : ITab
  reading : IndyReading
  resetP : Byte
  deriving DecidableEq, Repr

/-- The parameters this hardware takes (R3). -/
def Params.default : Params := { itab := itabDefault, reading := indyReading, resetP := Config.resetP }

/-- The parameters with only the table rows the source shows (30_encoding.md R57). -/
def Params.source : Params := { itab := itabSource, reading := indyReading, resetP := Config.resetP }

/-- `Step()` of R78 with the table and the reading as arguments. -/
def tableInstruction (params : Params) (s : State) : State :=
  match params.itab.lookup s.opcodeByte with
  | none => s.advance.raise (.unrecognizedOpcode s.opcodeByte s.pc)
  | some d => pcMux d.length (dispatch params.reading d.mnemonic d.mode s.advance)

/-- The step by lifecycle state of the machine with arguments. -/
def tableStep (params : Params) (s : State) : Host.Outcome State Fault Refusal :=
  lifecycleStep (fun t => .next (tableInstruction params t)) s

/-- `reset()` with `RESET_P` as argument (70_reset_and_hazards.md R202). -/
def tableReset (params : Params) (s : State) : State := resetWith params.resetP s

end Sys2Proof.Machine
end

