-- ==== Sys2Proof/Machine/Transactions.lean ====
section
/-! DEFINITION. The memory transactions of one step, in order (20_memory.md R40; the memory port of 10_state.md R23).
The order is DEDUCED by the spec (D15), safe: log entry 15. -/

namespace Sys2Proof.Machine

/-- One transaction of the memory port: a byte read or a byte written at an address (R23). -/
inductive Access where
  | read (addr : Word) (v : Byte)
  | write (addr : Word) (v : Byte)
  deriving DecidableEq, Repr

/-- The read of a cell. -/
def State.readAccess (s : State) (addr : Word) : Access := .read addr (s.read addr)

/-- The addresses the resolver reads: operand bytes low then high, then pointer bytes low then high (R40). -/
def State.resolverReads (s : State) (reading : IndyReading) (mode : Mode) : List Word :=
  match mode with
  | .immediate => []
  | .zeroPage => [s.pc]
  | .zeroPageX => [s.pc]
  | .zeroPageY => [s.pc]
  | .absolute => [s.pc, s.pc + 1]
  | .absoluteX => [s.pc, s.pc + 1]
  | .absoluteY => [s.pc, s.pc + 1]
  | .indirectX => [s.pc, zext16 (s.read s.pc + s.x), zext16 (s.read s.pc + s.x + 1)]
  | .indirectY =>
    match reading with
    | .canonical => [s.pc, zext16 (s.read s.pc), zext16 (s.read s.pc + 1)]
    | .literalPre => [s.pc, zext16 (s.read s.pc + s.y), zext16 (s.read s.pc + s.y + 1)]
    | .lowByteWrap => [s.pc, zext16 (s.read s.pc), zext16 (s.read s.pc + 1)]
  | .noneAddressing => []

/-- The data access of a handler at its effective address (R40 item 4). -/
def State.dataAccess (s : State) (mnemonic : Mnemonic) (ea : Word) : List Access :=
  match mnemonic with
  | .lda => [s.readAccess ea]
  | .sta => [.write ea s.a]
  | .and => [s.readAccess ea]
  | .tax => []
  | .inx => []
  | .brk => []

/-- The transactions of a handler; `s.pc` is the address of the first operand byte. -/
def State.handlerAccesses (s : State) (reading : IndyReading) (mnemonic : Mnemonic) (mode : Mode) : List Access :=
  if mnemonic.needsAddress then
    match s.effectiveAddress reading mode with
    | none => []
    | some ea => (s.resolverReads reading mode).map s.readAccess ++ s.dataAccess mnemonic ea
  else []

/-- The transactions of one instruction, the opcode fetch first (R40). -/
def instructionAccesses (params : Params) (s : State) : List Access :=
  s.readAccess s.pc ::
    match params.itab.lookup s.opcodeByte with
    | none => []
    | some d => s.advance.handlerAccesses params.reading d.mnemonic d.mode

/-- A transaction performed on a memory. -/
def Access.perform (s : State) : Access → State
  | .read _ _ => s
  | .write addr v => s.write addr v

end Sys2Proof.Machine
end

