-- ==== Sys2Proof/Safety.lean ====
section
/-! DEFINITION. The terms claims use: the end of a run (70_reset_and_hazards.md R209), the invariant of the machine, and the
registers no program writes (10_state.md R22). -/

namespace Sys2Proof.Machine

/-- A run has ended: `ls` is Halted or Faulted (R209). -/
abbrev State.Ended (s : State) : Prop := s.ls = .halted ∨ s.ls = .faulted

/-- A run has ended well: `ls = Halted` and `fr = none` (R209). -/
abbrev State.EndedWell (s : State) : Prop := s.ls = .halted ∧ s.fr = none

/-- The invariant: memory is canonical, a fault record stands exactly in Faulted (R19), and Zero and Negative are never
both set (10_state.md R16). -/
abbrev State.Inv (s : State) : Prop :=
  Memory.wf s.mem ∧ (s.ls = .faulted ↔ s.fr ≠ none) ∧ ¬(s.p.zero = true ∧ s.p.negative = true)

/-- The six flags that no instruction writes (R14, R22). -/
def Flags.inert (p : Flags) : Bool × Bool × Bool × Bool × Bool × Bool :=
  (p.carry, p.interruptDisable, p.decimalMode, p.breakFlag, p.break2, p.overflow)

/-- What R22 says of every run: `Y` and `SP` are 0x00 and the six unwritten flags hold `RESET_P`'s bits. -/
abbrev State.Unwritten (s : State) : Prop :=
  s.y = 0x00 ∧ s.sp = 0x00 ∧ s.p.inert = (Flags.ofByte Config.resetP).inert

end Sys2Proof.Machine
end

