-- ==== Sys2Proof/Certificates/Slice0/Obligations.lean ====
section
/-! DEFINITION. The statements for the provers. Each docstring names the rule of spec/ it formalises, or, where it rests on
a decision that the spec or the model marks as its own, that decision and its log entry. -/

open Sys2Proof Sys2Proof.Machine

namespace Sys2Proof.Claims

/-- From `s` the instruction completes with `A = v`, Zero and Negative from `v`, `pc` moved by `n`, and the whole of
the rest unchanged: every other register and flag, `ls`, `fr` and every byte of memory. -/
def LoadsA (i : Instr) (v : Byte) (n : Word) (s : State) : Prop :=
  ∃ t, exec i s = .next t ∧ t.a = v ∧ t.p.zero = decide (v.toNat = 0) ∧ t.p.negative = decide (128 ≤ v.toNat) ∧
    t.p.inert = s.p.inert ∧ t.x = s.x ∧ t.y = s.y ∧ t.sp = s.sp ∧ t.pc = s.pc + n ∧ t.ls = s.ls ∧ t.fr = s.fr ∧
    ∀ b, t.read b = s.read b

/-- From `s` the instruction completes with `X = v`, Zero and Negative from `v`, and the whole of the rest unchanged,
`pc` included. -/
def LoadsX (i : Instr) (v : Byte) (s : State) : Prop :=
  ∃ t, exec i s = .next t ∧ t.x = v ∧ t.p.zero = decide (v.toNat = 0) ∧ t.p.negative = decide (128 ≤ v.toNat) ∧
    t.p.inert = s.p.inert ∧ t.a = s.a ∧ t.y = s.y ∧ t.sp = s.sp ∧ t.pc = s.pc ∧ t.ls = s.ls ∧ t.fr = s.fr ∧
    ∀ b, t.read b = s.read b

/-- From `s` the instruction completes with `A` stored at `ea`, `pc` moved by `n`, and the whole of the rest unchanged:
every register, every flag, `ls`, `fr` and every byte of memory but the one at `ea`. -/
def StoresA (i : Instr) (ea : Word) (n : Word) (s : State) : Prop :=
  ∃ t, exec i s = .next t ∧ t.read ea = s.a ∧ (∀ b, b ≠ ea → t.read b = s.read b) ∧ t.a = s.a ∧ t.x = s.x ∧
    t.y = s.y ∧ t.sp = s.sp ∧ t.p = s.p ∧ t.pc = s.pc + n ∧ t.ls = s.ls ∧ t.fr = s.fr

/-- The state `t` is `s` but for `pc`, `ls` and `fr`: no register, flag or byte of memory differs. -/
def SameData (s t : State) : Prop :=
  t.a = s.a ∧ t.x = s.x ∧ t.y = s.y ∧ t.sp = s.sp ∧ t.p = s.p ∧ ∀ b, t.read b = s.read b

/-- The outcome is the fault entry of UnrecognizedOpcode from `s` (60_exceptions.md R171, R175). -/
def TakesUnrecognizedOpcode (o : Host.Outcome State Fault Refusal) (s : State) : Prop :=
  ∃ t, o = .next t ∧ t.fr = some (.unrecognizedOpcode (s.read s.pc) s.pc) ∧ t.ls = .faulted ∧ t.pc = s.pc + 1 ∧ SameData s t

/-- How a run that has used its fuel stands: in Halted or Faulted with the report of it, or still Running, unfinished. -/
def StandsAfterRun (r : State × Reply) : Prop :=
  r.1.ls = .halted ∧ r.2 = .halted ∨ r.1.ls = .faulted ∧ r.2 = .faulted r.1.fr ∨ r.1.ls = .running ∧ r.2 = .unfinished

end Sys2Proof.Claims

open Sys2Proof.Claims

/-! ## Encoding -/

/-- Words written out from the encodings of spec/opcode_table.json, one of each mnemonic and format at least, decode to
their instructions; the opcode bytes but 0xA9, 0xA5, 0x29, 0xAA, 0xE8 and 0x00 are the spec's decision D4 (log entry 4). -/
def Obligations.SpecWordsDecode : Prop :=
  ∀ rest : List Byte,
    decode (0xA9 :: 0xC0 :: rest) = .ok (.ldaImm 0xC0, rest) ∧
    decode (0xA5 :: 0x10 :: rest) = .ok (.ldaZp 0x10, rest) ∧
    decode (0xBD :: 0xFF :: 0x02 :: rest) = .ok (.ldaAbsX 0x02FF, rest) ∧
    decode (0x8D :: 0x00 :: 0x02 :: rest) = .ok (.staAbs 0x0200, rest) ∧
    decode (0x91 :: 0x20 :: rest) = .ok (.staIndY 0x20, rest) ∧
    decode (0x39 :: 0x00 :: 0x02 :: rest) = .ok (.andAbsY 0x0200, rest) ∧
    decode (0x21 :: 0xFD :: rest) = .ok (.andIndX 0xFD, rest) ∧
    decode (0xAA :: rest) = .ok (.tax, rest) ∧
    decode (0xE8 :: rest) = .ok (.inx, rest) ∧
    decode (0x00 :: rest) = .ok (.brk, rest)

/-- Under every well-formed table, decoding what the table's encoder gives for an instruction gives it back with every
operand bit, and leaves the bytes after it (30_encoding.md R50, R52, R55, R56). -/
def Obligations.DecodeInvertsEncodeUnderEveryTable : Prop :=
  ∀ (tab : ITab) (i : Instr) (rest : List Byte), tab.wf = true → i.wellFormed tab = true →
    ∃ bytes, encodeWith tab i = some bytes ∧ decodeWith tab (bytes ++ rest) = .ok (i, rest) ∧
      bytes.length = 1 + i.mode.operandBytes

/-- Every list of bytes that the hardware's decoder accepts begins with the encoding of the instruction it answers, so
each word has one meaning; every instruction is well-formed and its encoding decodes to it. -/
def Obligations.DecodedBytesAreTheEncoding : Prop :=
  (∀ (bytes : List Byte) (i : Instr) (rest : List Byte), decode bytes = .ok (i, rest) → bytes = encode i ++ rest) ∧
  (∀ (i : Instr) (rest : List Byte), i.wellFormed itabDefault = true ∧ decode (encode i ++ rest) = .ok (i, rest))

/-- Illegal opcodes (30_encoding.md R59, over the table of the spec's decision D4): a byte that is no instruction's
opcode is rejected by name whatever follows; there are 230 with `ITAB_DEFAULT` and 250 with `ITAB_SOURCE`. -/
def Obligations.UnlistedOpcodesAreRejected : Prop :=
  (∀ (b : Byte) (rest : List Byte), (∀ i : Instr, i.opcode ≠ b) → decode (b :: rest) = .error (.unrecognizedOpcode b)) ∧
  ((List.range 256).filter fun n => (itabDefault.lookup (BitVec.ofNat 8 n)).isNone).length = 230 ∧
  ((List.range 256).filter fun n => (itabSource.lookup (BitVec.ofNat 8 n)).isNone).length = 250

/-! ## Memory -/

/-- The word round trip (20_memory.md R35, derived there from R34): a word written is read back, its bytes stand low byte
first at `b` and `b +16 1`, and every other cell and all other state is unchanged. That the second byte of a word at 0xFFFF
stands at 0x0000 is the spec's decision D14 (log entry 9). -/
def Obligations.WordWriteThenReadReturnsTheWord : Prop :=
  ∀ (s : State) (b w : Word), Memory.wf s.mem →
    (s.writeWord b w).readWord b = w ∧ ((s.writeWord b w).read b).toNat = w.toNat % 256 ∧
    ((s.writeWord b w).read (b + 1)).toNat = w.toNat / 256 ∧
    (∀ c, c ≠ b → c ≠ b + 1 → (s.writeWord b w).read c = s.read c) ∧
    s.writeWord b w = { s with mem := (s.writeWord b w).mem }

/-- The bulk load (20_memory.md R44): where the image fits, its bytes stand from the base upwards, every other cell and
all other state is unchanged; where it does not, the load is rejected, which is the spec's decision D12 (log entry 16). -/
def Obligations.LoadImageCopiesTheBytes : Prop :=
  ∀ (s : State) (bytes : List Byte) (base : Word), Memory.wf s.mem →
    (0x10000 < base.toNat + bytes.length → s.loadImage bytes base = none) ∧
    (base.toNat + bytes.length ≤ 0x10000 → ∃ t, s.loadImage bytes base = some t ∧
      (∀ (k : Nat) (hk : k < bytes.length), t.read (base + BitVec.ofNat 16 k) = bytes[k]) ∧
      (∀ b : Word, b.toNat < base.toNat ∨ base.toNat + bytes.length ≤ b.toNat → t.read b = s.read b) ∧
      t = { s with mem := t.mem })

/-- Two canonical memories that read the same at every address are the same data (the model's representation, which the
spec leaves to it; what an unlisted cell reads is 20_memory.md R32). -/
def Obligations.EqualReadsMakeEqualMemories : Prop :=
  ∀ s t : State, Memory.wf s.mem → Memory.wf t.mem → (∀ b, s.read b = t.read b) → s.mem = t.mem

/-! ## Addressing modes -/

/-- The resolver's address in each mode as a number (41_addressing_modes.md R91 to R98): page-zero sums wrap at 256, word
sums at 65536, a pointer's high byte inside page zero. -/
def Obligations.ResolverAddressesByMode : Prop :=
  ∀ (s : State) (r : IndyReading),
    let d := (s.read s.pc).toNat
    let w := d + 256 * (s.read (s.pc + 1)).toNat
    let ea := fun m => (s.effectiveAddress r m).map BitVec.toNat
    ea .immediate = some s.pc.toNat ∧
    ea .zeroPage = some d ∧
    ea .zeroPageX = some ((d + s.x.toNat) % 256) ∧
    ea .zeroPageY = some ((d + s.y.toNat) % 256) ∧
    ea .absolute = some w ∧
    ea .absoluteX = some ((w + s.x.toNat) % 65536) ∧
    ea .absoluteY = some ((w + s.y.toNat) % 65536) ∧
    ea .indirectX = some ((s.read (BitVec.ofNat 16 ((d + s.x.toNat) % 256))).toNat +
      256 * (s.read (BitVec.ofNat 16 ((d + s.x.toNat + 1) % 256))).toNat)

/-- IndirectY under its three readings (R99; the choice of `canonical` is the spec's decision D8, log entry 6), and
NoneAddressing, which has no address (R100). -/
def Obligations.IndirectYReadings : Prop :=
  ∀ s : State,
    let d := (s.read s.pc).toNat
    let zp := fun n : Nat => (s.read (BitVec.ofNat 16 (n % 256))).toNat
    let ea := fun r => (s.effectiveAddress r .indirectY).map BitVec.toNat
    ea .canonical = some ((zp d + 256 * zp (d + 1) + s.y.toNat) % 65536) ∧
    ea .literalPre = some (zp (d + s.y.toNat) + 256 * zp (d + s.y.toNat + 1)) ∧
    ea .lowByteWrap = some ((zp d + s.y.toNat) % 256 + 256 * zp (d + 1)) ∧
    (∀ r, s.effectiveAddress r .noneAddressing = none)

/-- The three readings of IndirectY agree wherever `Y` is 0x00: the whole step of the machine is the same under each of
them, for every table (R99, derived there; decision D8). -/
def Obligations.ReadingsAgreeWhenYIsZero : Prop :=
  ∀ (params : Params) (r : IndyReading) (s : State), s.y = 0x00 →
    tableStep { params with reading := r } s = tableStep params s

/-! ## The instructions -/

/-- LDA in each of its eight forms completes with the addressed byte in `A` (42_load_store.md R110 to R118; six of the
opcode rows are decision D4, the IndirectY reading is D8: log entries 4, 6). -/
def Obligations.LdaFormsLoadTheAddressedByte : Prop :=
  ∀ (s : State) (d8 : Byte) (a16 : Word),
    LoadsA (.ldaImm d8) d8 1 s ∧
    LoadsA (.ldaZp d8) (s.read (zeroPageAddr d8)) 1 s ∧
    LoadsA (.ldaZpX d8) (s.read (zeroPageIndexedAddr d8 s.x)) 1 s ∧
    LoadsA (.ldaAbs a16) (s.read a16) 2 s ∧
    LoadsA (.ldaAbsX a16) (s.read (absoluteIndexedAddr a16 s.x)) 2 s ∧
    LoadsA (.ldaAbsY a16) (s.read (absoluteIndexedAddr a16 s.y)) 2 s ∧
    LoadsA (.ldaIndX d8) (s.read (s.indirectXAddr d8)) 1 s ∧
    LoadsA (.ldaIndY d8) (s.read (s.indirectYAddr indyReading d8)) 1 s

/-- AND in each of its eight forms completes with `A & v` in `A`, `v` the addressed byte (43_logical.md R141 to R149; seven
of the opcode rows are decision D4, the IndirectY reading is D8: log entries 4, 6). -/
def Obligations.AndFormsMaskWithTheAddressedByte : Prop :=
  ∀ (s : State) (d8 : Byte) (a16 : Word),
    LoadsA (.andImm d8) (s.a &&& d8) 1 s ∧
    LoadsA (.andZp d8) (s.a &&& s.read (zeroPageAddr d8)) 1 s ∧
    LoadsA (.andZpX d8) (s.a &&& s.read (zeroPageIndexedAddr d8 s.x)) 1 s ∧
    LoadsA (.andAbs a16) (s.a &&& s.read a16) 2 s ∧
    LoadsA (.andAbsX a16) (s.a &&& s.read (absoluteIndexedAddr a16 s.x)) 2 s ∧
    LoadsA (.andAbsY a16) (s.a &&& s.read (absoluteIndexedAddr a16 s.y)) 2 s ∧
    LoadsA (.andIndX d8) (s.a &&& s.read (s.indirectXAddr d8)) 1 s ∧
    LoadsA (.andIndY d8) (s.a &&& s.read (s.indirectYAddr indyReading d8)) 1 s

/-- STA in each of its seven forms completes with `A` stored at the address the meaning computes and nothing else
changed (42_load_store.md R120 to R127; the opcode rows are decision D4, the IndirectY reading is D8: log entries 4, 6). -/
def Obligations.StaFormsStoreAtTheirAddress : Prop :=
  ∀ (s : State) (d8 : Byte) (a16 : Word), Memory.wf s.mem →
    StoresA (.staZp d8) (zeroPageAddr d8) 1 s ∧
    StoresA (.staZpX d8) (zeroPageIndexedAddr d8 s.x) 1 s ∧
    StoresA (.staAbs a16) a16 2 s ∧
    StoresA (.staAbsX a16) (absoluteIndexedAddr a16 s.x) 2 s ∧
    StoresA (.staAbsY a16) (absoluteIndexedAddr a16 s.y) 2 s ∧
    StoresA (.staIndX d8) (s.indirectXAddr d8) 1 s ∧
    StoresA (.staIndY d8) (s.indirectYAddr indyReading d8) 1 s

/-- The address functions that the meanings use are the resolver's: where the operand stands at `pc`, `EA(mode)` is the
address the meaning of that operand computes (R90, R92 to R99). -/
def Obligations.MeaningAddressesAreTheResolvers : Prop :=
  ∀ (s : State) (i : Instr) (rest : List Byte), decode s.fetchBytes = .ok (i, rest) →
    let ea := s.advance.effectiveAddress indyReading i.mode
    (∀ d8, i.operand = .byte d8 →
      (i.mode = .immediate → ea = some (s.pc + 1) ∧ s.read (s.pc + 1) = d8) ∧
      (i.mode = .zeroPage → ea = some (zeroPageAddr d8)) ∧
      (i.mode = .zeroPageX → ea = some (zeroPageIndexedAddr d8 s.x)) ∧
      (i.mode = .indirectX → ea = some (s.indirectXAddr d8)) ∧
      (i.mode = .indirectY → ea = some (s.indirectYAddr indyReading d8))) ∧
    (∀ a16, i.operand = .word a16 →
      (i.mode = .absolute → ea = some a16) ∧
      (i.mode = .absoluteX → ea = some (absoluteIndexedAddr a16 s.x)) ∧
      (i.mode = .absoluteY → ea = some (absoluteIndexedAddr a16 s.y))) ∧
    (i.operand = .none → ea = none)

/-- The handlers of LDA, STA and AND over every mode with an address and every reading (42_load_store.md R110, R120,
43_logical.md R141): they move the one byte, write only what the rule names and leave `pc` and `pc_we` alone. The pairs
that no row has (STA Immediate, every ZeroPageY) are the spec's decision D23 (log entry 14), `pc_we` is D7 (log entry 13). -/
def Obligations.HandlersFollowTheEffectiveAddress : Prop :=
  ∀ (r : IndyReading) (m : Mode) (s : State) (ea : Word), s.effectiveAddress r m = some ea →
    (∃ t, dispatch r .lda m s = .returned t false ∧ t.a = s.read ea ∧ t.p.zero = decide (s.read ea = 0x00) ∧
      t.p.negative = (s.read ea).getLsbD 7 ∧ t.p.inert = s.p.inert ∧ t = { s with a := t.a, p := t.p }) ∧
    (∃ t, dispatch r .and m s = .returned t false ∧ (∀ k, t.a.getLsbD k = (s.a.getLsbD k && (s.read ea).getLsbD k)) ∧
      t.p.zero = decide (t.a = 0x00) ∧ t.p.negative = (s.a.getLsbD 7 && (s.read ea).getLsbD 7) ∧
      t.p.inert = s.p.inert ∧ t = { s with a := t.a, p := t.p }) ∧
    (∃ t, dispatch r .sta m s = .returned t false ∧ (Memory.wf s.mem → t.read ea = s.a) ∧
      (∀ b, b ≠ ea → t.read b = s.read b) ∧ t = { s with mem := t.mem })

/-- TAX (44_transfer_increment.md R155): one byte 0xAA, no operand; `X` takes `A`, Zero and Negative from it; nothing else
changes; the opcode fetch is the one memory access. -/
def Obligations.TaxMovesAToX : Prop :=
  (∀ rest, decode (0xAA :: rest) = .ok (.tax, rest)) ∧ Instr.tax.mode = .noneAddressing ∧ Instr.tax.length = 1 ∧
  ∀ s : State, LoadsX .tax s.a s ∧
    (s.read s.pc = 0xAA → instructionAccesses Params.default s = [.read s.pc 0xAA])

/-- INX (R156): one byte 0xE8, no operand; `X` becomes `(X + 1) mod 256`, Zero and Negative from it; nothing else changes,
Carry and Overflow included; the opcode fetch is the one memory access. -/
def Obligations.InxIncrementsXModulo256 : Prop :=
  (∀ rest, decode (0xE8 :: rest) = .ok (.inx, rest)) ∧ Instr.inx.mode = .noneAddressing ∧ Instr.inx.length = 1 ∧
  ∀ s : State, (∃ v, v.toNat = (s.x.toNat + 1) % 256 ∧ LoadsX .inx v s) ∧
    (s.read s.pc = 0xE8 → instructionAccesses Params.default s = [.read s.pc 0xE8])

/-- BRK (45_halt.md R165, R166) completes in Halted with every register, flag, byte of memory, `pc` and `fr` unchanged; as a
whole step, from every state but Faulted, it leaves `pc` one past the halt byte. -/
def Obligations.BrkOnlyHalts : Prop :=
  (∀ s : State, ∃ t, exec .brk s = .next t ∧ t.ls = .halted ∧ t.pc = s.pc ∧ t.fr = s.fr ∧ SameData s t) ∧
  (∀ s : State, s.ls ≠ .faulted → s.read s.pc = 0x00 →
    ∃ t, step s = .next t ∧ t.ls = .halted ∧ t.pc = s.pc + 1 ∧ t.fr = s.fr ∧ SameData s t)

/-! ## Flags -/

/-- `SetZN(r)` (10_state.md R16): Zero from `r == 0x00`, Negative from bit 7, no other flag, and never both. `SetA(v)` (R17)
writes `A` and then these two. -/
def Obligations.SetZNWritesZeroAndNegativeOnly : Prop :=
  (∀ (p : Flags) (r : Byte), (p.setZN r).zero = decide (r.toNat = 0) ∧ (p.setZN r).negative = decide (128 ≤ r.toNat) ∧
    (p.setZN r).inert = p.inert ∧ ¬((p.setZN r).zero = true ∧ (p.setZN r).negative = true)) ∧
  ∀ (s : State) (v : Byte), s.setA v = { s with a := v, p := s.p.setZN v }

/-- The derived-flag invariant (R15): after LDA, AND, TAX and INX Zero and Negative are those of the register written; STA,
BRK, an unlisted byte and the commands that run nothing leave `P` unchanged; `reset` clears both bits, which rests on the
default `RESET_P` of the spec's decision D2 (log entry 5). -/
def Obligations.ZeroAndNegativeAreDerived : Prop :=
  (∀ (i : Instr) (s t : State), exec i s = .next t →
    (i.mnemonic = .lda ∨ i.mnemonic = .and → t.p.zero = decide (t.a = 0x00) ∧ t.p.negative = t.a.getLsbD 7) ∧
    (i.mnemonic = .tax ∨ i.mnemonic = .inx → t.p.zero = decide (t.x = 0x00) ∧ t.p.negative = t.x.getLsbD 7) ∧
    (i.mnemonic = .sta ∨ i.mnemonic = .brk → t.p = s.p)) ∧
  (∀ s t : State, (∀ i : Instr, i.opcode ≠ s.read s.pc) → step s = .next t → t.p = s.p) ∧
  (∀ s t : State, resetCommand s = (t, .done) → t.p.zero = false ∧ t.p.negative = false) ∧
  (∀ (fuel : Nat) (s : State) (bytes : List Byte) (b : Word) (v : Byte), (perform fuel (.load bytes) s).1.p = s.p ∧
    (perform fuel (.memoryRead b) s).1.p = s.p ∧ (perform fuel (.memoryWrite b v) s).1.p = s.p ∧
    (perform fuel .inspect s).1.p = s.p)

/-- `SetZN` on the packed status byte of the inspection port: bits 1 and 7 only. The bit positions are the spec's decision
D1 (log entry 7; 10_state.md R14, R16, table 2.1 of 95_test_vectors.md). -/
def Obligations.SetZNOnThePackedByte : Prop :=
  ∀ (p : Flags) (r : Byte),
    (p.setZN r).toByte = (p.toByte &&& 0x7D) ||| (if r = 0x00 then 0x02 else 0x00) ||| (r &&& 0x80)

/-- The packed byte holds the eight flags at R14's places and loses none; it is what the inspection port's line `P` carries. The places are
the spec's decision D1 (log entry 7). -/
def Obligations.PackedByteHoldsTheFlags : Prop :=
  (∀ v : Byte, (Flags.ofByte v).toByte = v) ∧ (∀ p : Flags, Flags.ofByte p.toByte = p) ∧
  (∀ s : State, s.shown.p.getLsbD 0 = s.p.carry ∧ s.shown.p.getLsbD 1 = s.p.zero ∧
    s.shown.p.getLsbD 2 = s.p.interruptDisable ∧ s.shown.p.getLsbD 3 = s.p.decimalMode ∧
    s.shown.p.getLsbD 4 = s.p.breakFlag ∧ s.shown.p.getLsbD 5 = s.p.break2 ∧
    s.shown.p.getLsbD 6 = s.p.overflow ∧ s.shown.p.getLsbD 7 = s.p.negative)

/-- The carry port (10_state.md R20): it sets and clears Carry and no other flag. No step changes Carry (derived in R20 from
R22 and R58), and no command, but that `reset` and the reset inside `loadAndRun` (70_reset_and_hazards.md R202, R206)
give it the bit of `RESET_P`, whose value is the spec's decision D2 (log entry 5). -/
def Obligations.OnlyTheCarryPortAndResetWriteCarry : Prop :=
  (∀ p : Flags, p.setCarry = { p with carry := true } ∧ p.clearCarry = { p with carry := false }) ∧
  (∀ s t : State, step s = .next t → t.p.carry = s.p.carry) ∧
  (∀ (fuel : Nat) (c : Command) (s : State), (perform fuel c s).1.p.carry = s.p.carry ∨
    (c = .reset ∨ ∃ bytes, c = .loadAndRun bytes) ∧ (perform fuel c s).1.p.carry = (Flags.ofByte Config.resetP).carry)

/-! ## The step -/

/-- When the bytes at `pc` decode to an instruction, the step is its meaning after the advance past the opcode: alone in
Running, and in the four stopped states that accept the single-step command from Running and back to Ready
(40_fetch_decode_pc.md R78, 70_reset_and_hazards.md R204; the union of the two is the model's: log entry 1). -/
def Obligations.StepRunsTheDecodedInstruction : Prop :=
  ∀ (s : State) (i : Instr) (rest : List Byte), decode s.fetchBytes = .ok (i, rest) →
    (s.ls = .running → step s = exec i (s.setPc (s.pc + 1))) ∧
    (s.ls ≠ .running → s.ls ≠ .faulted →
      ∀ o, exec i ((s.setLs .running).setPc (s.pc + 1)) = .next o →
        step s = .next (if o.ls = .running then { o with ls := .ready } else o))

/-- The step that decodes to an instruction and runs its meaning is the machine that looks a descriptor up, dispatches
on (mnemonic, mode) and resolves operands at `pc`, at the default parameters: the two keys of 90_conflicts.md C4 select
the same behaviour from every state. -/
def Obligations.StepIsTheTableMachineAtTheDefaults : Prop :=
  ∀ s : State, step s = tableStep Params.default s

/-- UnrecognizedOpcode (60_exceptions.md R171, R175, R80; the recorded outcome is the spec's decision D9, log entry 10):
from every state but Faulted, a byte outside the table, any table, is recorded with its own address, the machine stops in
Faulted, `pc` is one past the byte and nothing else has changed. -/
def Obligations.UnlistedByteTakesUnrecognizedOpcode : Prop :=
  (∀ (params : Params) (s : State), s.ls ≠ .faulted → params.itab.lookup (s.read s.pc) = none →
    TakesUnrecognizedOpcode (tableStep params s) s) ∧
  (∀ s : State, s.ls ≠ .faulted → (∀ i : Instr, i.opcode ≠ s.read s.pc) → TakesUnrecognizedOpcode (step s) s)

/-- A step answers a next state from every state but Faulted, and stops from Faulted (R78, R175; that Faulted is sticky is
the spec's decisions D11 and D21, log entry 11); it never refuses. -/
def Obligations.EveryStepCompletesUnlessFaulted : Prop :=
  ∀ s : State, (s.ls = .faulted → step s = .fault .machineFaulted) ∧ (s.ls ≠ .faulted → ∃ t, step s = .next t)

/-- The halt byte is the sole way into Halted and an unlisted byte the sole way into Faulted (45_halt.md R165, R171); after
any other byte the machine is Running if it was, else Ready (R204). -/
def Obligations.HaltByteIsTheSoleWayToHalted : Prop :=
  ∀ s t : State, step s = .next t →
    (t.ls = .halted ↔ s.read s.pc = 0x00) ∧
    (t.ls = .faulted ↔ ∀ i : Instr, i.opcode ≠ s.read s.pc) ∧
    (t.ls ≠ .halted → t.ls ≠ .faulted → t.ls = if s.ls = .running then .running else .ready)

/-- `pc` moves forward only, by the length of the instruction, or by one on the halt and on an unlisted byte
(40_fetch_decode_pc.md R72, R77, R81; the wrap at 0xFFFF is the spec's decision D14, log entry 9). -/
def Obligations.PcMovesByTheLength : Prop :=
  ∀ s t : State, step s = .next t →
    (∀ i rest, decode s.fetchBytes = .ok (i, rest) → t.pc = s.pc + BitVec.ofNat 16 i.length) ∧
    ((∀ i : Instr, i.opcode ≠ s.read s.pc) → t.pc = s.pc + 1) ∧
    (t.pc = s.pc + 1 ∨ t.pc = s.pc + 2 ∨ t.pc = s.pc + 3)

/-- No step writes `Y`, `SP` or the six inert flags; `A` changes only through LDA and AND, `X` only through TAX and INX,
memory only through STA (44_transfer_increment.md R157, 10_state.md R22, 40_fetch_decode_pc.md R78). -/
def Obligations.StepWritesOnlyWhatItsInstructionMay : Prop :=
  ∀ s t : State, step s = .next t →
    t.y = s.y ∧ t.sp = s.sp ∧ t.p.inert = s.p.inert ∧
    (t.a ≠ s.a → ∃ i rest, decode s.fetchBytes = .ok (i, rest) ∧ (i.mnemonic = .lda ∨ i.mnemonic = .and)) ∧
    (t.x ≠ s.x → ∃ i rest, decode s.fetchBytes = .ok (i, rest) ∧ (i.mnemonic = .tax ∨ i.mnemonic = .inx)) ∧
    ((∃ b, t.read b ≠ s.read b) → ∃ i rest, decode s.fetchBytes = .ok (i, rest) ∧ i.mnemonic = .sta)

/-- The reserved control-flow capability (R76, decision D7, log entry 13): a handler that writes `pc` gets no length
advance, and no handler in scope writes it, in any mode. -/
def Obligations.NoHandlerWritesPc : Prop :=
  (∀ (n : Nat) (target : Word) (s : State), pcMux n (handlerWritePc target s) = { s with pc := target }) ∧
  (∀ (r : IndyReading) (mn : Mnemonic) (m : Mode) (s : State),
    (∀ t we, dispatch r mn m s = .returned t we →
      we = false ∧ t.pc = s.pc ∧ ∀ n, (pcMux n (dispatch r mn m s)).pc = s.pc + BitVec.ofNat 16 (n - 1)) ∧
    (∀ t, dispatch r mn m s = .ended t → t.pc = s.pc ∧ ∀ n, (pcMux n (dispatch r mn m s)).pc = s.pc))

/-- With a well-formed table no step raises InvalidAddressingRequest (60_exceptions.md R172, 30_encoding.md R56; the
well-formedness condition is the spec's decision D10, log entry 14). -/
def Obligations.WellFormedTablesNeverAskForNoAddress : Prop :=
  ∀ (params : Params) (s t : State), params.itab.wf = true → tableStep params s = .next t →
    s.fr ≠ some .invalidAddressingRequest → t.fr ≠ some .invalidAddressingRequest

/-- InvalidAddressingRequest (60_exceptions.md R172, R175, 41_addressing_modes.md R100): a row that needs an address and has
NoneAddressing, possible only in an ill-formed table, is recorded, the machine stops in Faulted, `pc` is one past the
opcode and nothing else has changed (the recorded outcome is the spec's decision D10, log entry 14). -/
def Obligations.AddresslessRowTakesInvalidAddressingRequest : Prop :=
  ∀ (params : Params) (s : State) (d : Descriptor), s.ls ≠ .faulted → params.itab.lookup (s.read s.pc) = some d →
    d.mnemonic = .lda ∨ d.mnemonic = .sta ∨ d.mnemonic = .and → d.mode = .noneAddressing →
    ∃ t, tableStep params s = .next t ∧ t.fr = some .invalidAddressingRequest ∧ t.ls = .faulted ∧ t.pc = s.pc + 1 ∧
      SameData s t

/-- Fetch is coherent with stores (20_memory.md R43, derived there): whatever the form of the STA, a byte that it stores at
the address of the next opcode is the opcode the next step fetches. -/
def Obligations.StoredByteIsTheNextOpcode : Prop :=
  ∀ (s : State) (i : Instr) (rest : List Byte), Memory.wf s.mem → s.ls ≠ .faulted → decode s.fetchBytes = .ok (i, rest) →
    i.mnemonic = .sta → s.advance.effectiveAddress indyReading i.mode = some (s.pc + BitVec.ofNat 16 i.length) →
    ∃ t, step s = .next t ∧ t.opcodeByte = s.a

/-- The word placed by `withFetchWord` is the instruction the next step runs, from every state with canonical memory, and
nothing but the three bytes at `pc` and a stopped-for-good lifecycle has changed (the model's own: log entry 2). -/
def Obligations.FetchWordIsWhatTheNextStepRuns : Prop :=
  ∀ (s : State) (nbits w : Nat) (i : Instr), Memory.wf s.mem → decodeTableWord nbits w = some i →
    let u := s.withFetchWord nbits w
    (∃ rest, decode u.fetchBytes = .ok (i, rest)) ∧ u.ls ≠ .faulted ∧
    (s.ls ≠ .faulted → u.ls = s.ls ∧ u.fr = s.fr) ∧
    u.a = s.a ∧ u.x = s.x ∧ u.y = s.y ∧ u.sp = s.sp ∧ u.p = s.p ∧ u.pc = s.pc ∧
    ∀ b, b ≠ s.pc → b ≠ s.pc + 1 → b ≠ s.pc + 2 → u.read b = s.read b

/-! ## Memory transactions -/

/-- The transactions of a step (20_memory.md R40, order D15, log entry 15): the opcode fetch first, at most five, each
read the byte that stands in memory, at most one write, and that the last. -/
def Obligations.AWriteIsTheLastAccess : Prop :=
  ∀ (params : Params) (s : State),
    ∃ reads : List Word, (instructionAccesses params s).length ≤ 5 ∧ reads.head? = some s.pc ∧
      (instructionAccesses params s = reads.map (fun b => .read b (s.read b)) ∨
        ∃ ea, instructionAccesses params s = reads.map (fun b => .read b (s.read b)) ++ [.write ea s.a])

/-- The listed transactions are what the step does to memory: performing them in order gives the memory after it. -/
def Obligations.AccessesAccountForMemory : Prop :=
  ∀ (params : Params) (s : State),
    ((instructionAccesses params s).foldl Access.perform s).mem = (tableInstruction params s).mem

/-- The transactions of a step mode by mode (20_memory.md R40's table; the order is decision D15, log entry 15): the opcode
fetch, the operand bytes low then high, the pointer bytes low then high, and the data access at the effective address;
the fetch alone where the mnemonic needs no address or the byte is unlisted. The pointer of IndirectY is that of the
reading (decision D8, log entry 6). -/
def Obligations.AccessesByModeInOrder : Prop :=
  ∀ (params : Params) (s : State),
    let p := s.pc + 1
    let base := (s.read p).toNat
    let zp := fun n : Nat => BitVec.ofNat 16 (n % 256)
    let rd := fun b : Word => Access.read b (s.read b)
    (params.itab.lookup (s.read s.pc) = none → instructionAccesses params s = [rd s.pc]) ∧
    ∀ d, params.itab.lookup (s.read s.pc) = some d →
      (d.mnemonic = .tax ∨ d.mnemonic = .inx ∨ d.mnemonic = .brk → instructionAccesses params s = [rd s.pc]) ∧
      ∀ ea data, s.advance.effectiveAddress params.reading d.mode = some ea →
        d.mnemonic = .sta ∧ data = Access.write ea s.a ∨ (d.mnemonic = .lda ∨ d.mnemonic = .and) ∧ data = rd ea →
        (d.mode = .immediate → instructionAccesses params s = [rd s.pc, data]) ∧
        (d.mode = .zeroPage ∨ d.mode = .zeroPageX ∨ d.mode = .zeroPageY →
          instructionAccesses params s = [rd s.pc, rd p, data]) ∧
        (d.mode = .absolute ∨ d.mode = .absoluteX ∨ d.mode = .absoluteY →
          instructionAccesses params s = [rd s.pc, rd p, rd (p + 1), data]) ∧
        (d.mode = .indirectX → instructionAccesses params s =
          [rd s.pc, rd p, rd (zp (base + s.x.toNat)), rd (zp (base + s.x.toNat + 1)), data]) ∧
        (d.mode = .indirectY → params.reading = .canonical ∨ params.reading = .lowByteWrap →
          instructionAccesses params s = [rd s.pc, rd p, rd (zp base), rd (zp (base + 1)), data]) ∧
        (d.mode = .indirectY → params.reading = .literalPre → instructionAccesses params s =
          [rd s.pc, rd p, rd (zp (base + s.y.toNat)), rd (zp (base + s.y.toNat + 1)), data])

/-- A step depends on memory only through the cells its transactions read (10_state.md R21: no hidden state; R40, D15,
log entry 15): two states that agree on every register, on `ls` and `fr`, and on those cells step to states that agree on
every register, on `ls` and `fr`, with the same transactions; and every cell on which the two memories agreed before, they
agree on after. -/
def Obligations.StepDependsOnlyOnTheCellsItReads : Prop :=
  ∀ (params : Params) (s t : State), { s with mem := t.mem } = t →
    (∀ b v, Access.read b v ∈ instructionAccesses params s → t.read b = v) →
    instructionAccesses params t = instructionAccesses params s ∧
    { tableInstruction params s with mem := (tableInstruction params t).mem } = tableInstruction params t ∧
    (Memory.wf s.mem → Memory.wf t.mem → ∀ b, t.read b = s.read b →
      (tableInstruction params t).read b = (tableInstruction params s).read b)

/-! ## Invariants -/

/-- The invariant holds at power-on and right after reset, and the registers no program writes are as reset leaves
them (10_state.md R24; decisions D2, D3, D20: log entries 3, 5, 19). -/
def Obligations.InvariantHoldsAtPowerOnAndReset : Prop :=
  State.powerOn.Inv ∧ State.powerOn.Unwritten ∧ State.reset.Inv ∧ State.reset.Unwritten ∧
  resetCommand State.powerOn = (State.reset, .done)

/-- Every step keeps the invariant: canonical memory (the model's), a fault record exactly in Faulted (R19), Zero and
Negative never both set (R16). -/
def Obligations.EveryStepKeepsTheInvariant : Prop :=
  ∀ s t : State, s.Inv → step s = .next t → t.Inv

/-- Every host command, with any fuel, keeps the invariant and what R22 says of every run: `Y` and `SP` are 0x00 and the
six unwritten flags hold `RESET_P`'s bits. -/
def Obligations.EveryCommandKeepsTheInvariant : Prop :=
  ∀ (fuel : Nat) (c : Command) (s : State),
    (s.Inv → (perform fuel c s).1.Inv) ∧ (s.Unwritten → (perform fuel c s).1.Unwritten)

/-! ## Lifecycle and host commands -/

/-- Power-on, the host's `new()` (70_reset_and_hazards.md R200, 10_state.md R24): every register, every flag and every byte
of memory is zero, nothing is loaded and no fault is recorded (`SP` is the spec's decision D3, log entry 19). -/
def Obligations.PowerOnIsZeroed : Prop :=
  State.powerOn.a = 0x00 ∧ State.powerOn.x = 0x00 ∧ State.powerOn.y = 0x00 ∧ State.powerOn.sp = 0x00 ∧
  State.powerOn.p.toByte = 0x00 ∧ State.powerOn.pc = 0x0000 ∧ (∀ b, State.powerOn.read b = 0x00) ∧
  State.powerOn.ls = .unloaded ∧ State.powerOn.fr = none

/-- `reset()` (70_reset_and_hazards.md R202; the flags' value is the spec's decision D2, log entry 5): registers and flags
zeroed, `pc` from the vector, `SP` and memory not written, and a second `reset` changes nothing. -/
def Obligations.ResetZeroesRegistersAndLoadsPc : Prop :=
  ∀ s : State, s.ls ≠ .running →
    ∃ t, resetCommand s = (t, .done) ∧ t.a = 0x00 ∧ t.x = 0x00 ∧ t.y = 0x00 ∧ t.p.toByte = 0x00 ∧
      t.pc.toNat = (s.read 0xFFFC).toNat + 256 * (s.read 0xFFFD).toNat ∧ t.fr = none ∧ t.ls = .ready ∧
      t.sp = s.sp ∧ (∀ b, t.read b = s.read b) ∧ resetCommand t = (t, .done)

/-- `load(bytes)` of an image that fits (R201; that the vector is written last is decision D12, log entry 16): the image at
0x8000, the vector at 0x8000, every other cell and every register unchanged. -/
def Obligations.LoadPlacesTheImageAndTheVector : Prop :=
  ∀ (bytes : List Byte) (s : State), Memory.wf s.mem → s.ls ≠ .running → bytes.length ≤ 0x8000 →
    ∃ t, loadCommand bytes s = (t, .done) ∧
      (∀ (k : Nat) (hk : k < bytes.length), k ≠ 0x7FFC → k ≠ 0x7FFD → t.read (0x8000 + BitVec.ofNat 16 k) = bytes[k]) ∧
      t.read 0xFFFC = 0x00 ∧ t.read 0xFFFD = 0x80 ∧
      (∀ b : Word, b ≠ 0xFFFC → b ≠ 0xFFFD → b.toNat < 0x8000 ∨ 0x8000 + bytes.length ≤ b.toNat → t.read b = s.read b) ∧
      t.fr = none ∧ t.ls = .loaded ∧ t = { s with mem := t.mem, fr := t.fr, ls := t.ls }

/-- ImageOverflow (60_exceptions.md R173, decision D12, log entry 16): an image of more than 0x8000 bytes is rejected and
nothing changes, whether by `load` or by `loadAndRun`. -/
def Obligations.OversizedImageChangesNothing : Prop :=
  ∀ (fuel : Nat) (bytes : List Byte) (s : State), s.ls ≠ .running → 0x8000 < bytes.length →
    perform fuel (.load bytes) s = (s, .imageOverflow) ∧ perform fuel (.loadAndRun bytes) s = (s, .imageOverflow)

/-- `loadAndRun` (70_reset_and_hazards.md R206): `load`, `reset`, `run`; the run starts at 0x8000 with `A`, `X`, `Y` and
the flags zero, and memory as `load` left it. -/
def Obligations.LoadAndRunStartsAtTheProgramBase : Prop :=
  ∀ (fuel : Nat) (bytes : List Byte) (s : State), Memory.wf s.mem → s.ls ≠ .running → bytes.length ≤ 0x8000 →
    ∃ t, perform fuel (.loadAndRun bytes) s = perform fuel .run t ∧ t.pc = 0x8000 ∧ t.a = 0x00 ∧ t.x = 0x00 ∧
      t.y = 0x00 ∧ t.sp = s.sp ∧ t.p = Flags.clear ∧ t.ls = .ready ∧ t.fr = none ∧ t.mem = (perform fuel (.load bytes) s).1.mem

/-- The lifecycle table (R205, R177; the spec's decisions D11, D12, D24, log entries 12, 16, 17, 18): what each command
answers and which state it leaves, by the state it meets: any command in Running; `run` and `step` in Faulted; `load`,
`reset`, `loadAndRun` and the host's access in every other state than Running; `run` and `step` in the four states that
accept them, `run` by way of Running. -/
def Obligations.LifecycleTransitions : Prop :=
  ∀ (fuel : Nat) (s : State),
    (s.ls = .running → ∀ c, perform fuel c s = (s, .notAccepted)) ∧
    (s.ls = .faulted → perform fuel .run s = (s, .refused) ∧ perform fuel .step s = (s, .refused)) ∧
    (s.ls ≠ .running → (perform fuel .reset s).1.ls = .ready ∧ (perform fuel .reset s).1.fr = none ∧
      (perform fuel .reset s).2 = .done ∧
      (∀ bytes : List Byte, bytes.length ≤ 0x8000 →
        (perform fuel (.load bytes) s).2 = .done ∧ (perform fuel (.load bytes) s).1.ls = .loaded ∧
        (perform fuel (.load bytes) s).1.fr = none ∧ StandsAfterRun (perform fuel (.loadAndRun bytes) s)) ∧
      (∀ bytes : List Byte, 0x8000 < bytes.length →
        perform fuel (.load bytes) s = (s, .imageOverflow) ∧ perform fuel (.loadAndRun bytes) s = (s, .imageOverflow)) ∧
      (∀ (b : Word) (v : Byte), perform fuel (.memoryRead b) s = (s, .byte (s.read b)) ∧
        perform fuel (.memoryWrite b v) s = (s.write b v, .done) ∧ (s.write b v).ls = s.ls ∧ (s.write b v).fr = s.fr ∧
        perform fuel .inspect s = (s, .inspected s.shown))) ∧
    (s.ls ≠ .running → s.ls ≠ .faulted →
      (perform 0 .run s).1 = { s with ls := .running } ∧ StandsAfterRun (perform fuel .run s) ∧
      ((perform fuel .step s).1.ls = .ready ∧ (perform fuel .step s).2 = .continuing ∨
        (perform fuel .step s).1.ls = .halted ∧ (perform fuel .step s).2 = .halted ∨
        (perform fuel .step s).1.ls = .faulted ∧ (perform fuel .step s).2 = .faulted (perform fuel .step s).1.fr))

/-- `run` (40_fetch_decode_pc.md R79, R203) ends only in Halted or Faulted, with the report of it, or is still Running when
the model's fuel is spent (log entry 18); once it has ended, more fuel changes nothing. -/
def Obligations.RunEndsOnlyInHaltedOrFaulted : Prop :=
  ∀ (fuel : Nat) (s : State), s.ls ≠ .running → s.ls ≠ .faulted →
    StandsAfterRun (runCommand fuel s) ∧
    ((runCommand fuel s).1.ls ≠ .running → ∀ more, runCommand (fuel + more) s = runCommand fuel s)

/-- `n` calls of `step` and a `run` that performs `n` steps reach the same state, but that the one is Ready where the
other is still Running (70_reset_and_hazards.md R204, derived there). -/
def Obligations.StepCommandsReachWhatRunReaches : Prop :=
  ∀ (n : Nat) (s : State), s.ls ≠ .running → s.ls ≠ .faulted →
    (∀ k, k ≤ n → (runCommand k s).1.ls = .running) →
    (fun u => (stepCommand u).1)^[n + 1] s = (runCommand (n + 1) s).1.settle

/-- Host access to memory (R207, the spec's decision D24, log entry 17): possible when the machine is not Running; a write
changes one cell and no register, and a read returns the cell. -/
def Obligations.HostReadsAndWritesMemory : Prop :=
  ∀ (fuel : Nat) (s : State) (b : Word) (v : Byte), Memory.wf s.mem → s.ls ≠ .running →
    perform fuel (.memoryRead b) s = (s, .byte (s.read b)) ∧
    ∃ t, perform fuel (.memoryWrite b v) s = (t, .done) ∧ perform fuel (.memoryRead b) t = (t, .byte v) ∧
      (∀ c, c ≠ b → t.read c = s.read c) ∧ t = { s with mem := t.mem }

/-- The host's inspection (R207, the spec's decision D24, log entry 17): in Running it is not possible; in every other
state it shows `A`, `X`, `Y`, `pc`, the packed flags, `ls` and `fr` as they are, and changes nothing. -/
def Obligations.HostInspectsOnlyWhenNotRunning : Prop :=
  ∀ (fuel : Nat) (s : State),
    (s.ls = .running → s.inspect = none ∧ perform fuel .inspect s = (s, .notAccepted)) ∧
    (s.ls ≠ .running → ∃ v, s.inspect = some v ∧ perform fuel .inspect s = (s, .inspected v) ∧ v.a = s.a ∧ v.x = s.x ∧
      v.y = s.y ∧ v.pc = s.pc ∧ Flags.ofByte v.p = s.p ∧ v.ls = s.ls ∧ v.fr = s.fr)
end

