-- ==== Sys2Proof/Laws/Decode.lean ====
section
/-! SUPPORT. The laws of the byte order and of the parts of the decoder: what a callee of `decode` or `encode` answers. -/

namespace Sys2Proof

/-! ## Byte order (00_scope.md R4) -/

@[simp] theorem toNat_concatBytes (hi lo : Byte) : (concatBytes hi lo).toNat = hi.toNat * 256 + lo.toNat := by
  simp only [concatBytes, BitVec.toNat_ofNat]; omega

@[simp] theorem toNat_lowByte (v : Word) : (lowByte v).toNat = v.toNat % 256 := by simp [lowByte]

@[simp] theorem toNat_highByte (v : Word) : (highByte v).toNat = v.toNat / 256 := by
  simp only [highByte, BitVec.extractLsb'_toNat, Nat.shiftRight_eq_div_pow]; omega

@[simp] theorem toNat_zext16 (v : Byte) : (zext16 v).toNat = v.toNat := by simp [zext16]; omega

@[simp] theorem concatBytes_high_low (v : Word) : concatBytes (highByte v) (lowByte v) = v :=
  BitVec.eq_of_toNat_eq (by simp only [toNat_concatBytes, toNat_highByte, toNat_lowByte]; omega)

@[simp] theorem lowByte_concatBytes (hi lo : Byte) : lowByte (concatBytes hi lo) = lo :=
  BitVec.eq_of_toNat_eq (by simp only [toNat_concatBytes, toNat_lowByte]; omega)

@[simp] theorem highByte_concatBytes (hi lo : Byte) : highByte (concatBytes hi lo) = hi :=
  BitVec.eq_of_toNat_eq (by simp only [toNat_concatBytes, toNat_highByte]; omega)

/-! ## Operand bytes -/

/-- The bytes of an instruction's operand are taken back whole, and the rest is left. -/
theorem takeOperand_bytes (i : Instr) (rest : List Byte) :
    takeOperand i.mode (i.operand.bytes ++ rest) = some (i.operand, rest) := by
  cases i <;> simp [Instr.mode, Instr.operand, Operand.bytes, takeOperand]

/-- What is taken is what stood there: no bit of an operand byte is dropped. -/
theorem eq_of_takeOperand {m : Mode} {bytes rest : List Byte} {o : Operand}
    (h : takeOperand m bytes = some (o, rest)) : bytes = o.bytes ++ rest := by
  unfold takeOperand at h
  split at h <;> simp only [Option.some.injEq, Prod.mk.injEq, reduceCtorEq] at h <;>
    obtain ⟨rfl, rfl⟩ := h <;> simp [Operand.bytes]

theorem length_operand_bytes (i : Instr) : i.operand.bytes.length = i.mode.operandBytes := by
  cases i <;> rfl

/-! ## Forms -/

theorem ofForm_of_instr (i : Instr) : Instr.ofForm i.mnemonic i.mode i.operand = some i := by
  cases i <;> rfl

theorem eq_of_ofForm {mn : Mnemonic} {md : Mode} {o : Operand} {i : Instr} (h : Instr.ofForm mn md o = some i) :
    i.mnemonic = mn ∧ i.mode = md ∧ i.operand = o := by
  cases mn <;> simp only [Instr.ofForm, Instr.ldaForm, Instr.staForm, Instr.andForm, Instr.impliedForm] at h <;>
    split at h <;> simp only [Option.some.injEq, reduceCtorEq] at h <;> subst h <;> exact ⟨rfl, rfl, rfl⟩

/-- In a table with unique keys the lookup of a row's opcode is that row. -/
theorem lookup_of_mem {tab : ITab} (hu : tab.uniqueKeys = true) {d : Descriptor} (hd : d ∈ tab) :
    tab.lookup d.opcode = some d := by
  replace hu : (tab.map Descriptor.opcode).Nodup := by simpa [ITab.uniqueKeys] using hu
  unfold ITab.lookup
  induction tab with
  | nil => cases hd
  | cons e tab ih =>
    simp only [List.map_cons, List.nodup_cons] at hu
    rcases List.mem_cons.1 hd with rfl | hd
    · simp
    · have hne : ¬ e.opcode = d.opcode := fun h => hu.1 (h ▸ List.mem_map_of_mem hd)
      simp [hne, ih hd hu.2]

/-- A row that the lookup answers is a row of the table, under the byte looked up. -/
theorem mem_of_lookup {tab : ITab} {b : Byte} {d : Descriptor} (h : tab.lookup b = some d) : d ∈ tab ∧ d.opcode = b :=
  ⟨List.mem_of_find?_eq_some h, by simpa using List.find?_some h⟩

/-- Every instruction has its row in `ITAB_DEFAULT`, under its own opcode. -/
theorem mem_itabDefault (i : Instr) :
    ∃ d ∈ itabDefault, d.opcode = i.opcode ∧ d.mnemonic = i.mnemonic ∧ d.mode = i.mode ∧ d.length = i.length := by
  cases i <;> simp [itabDefault, itabSource, itabLoadRows, itabStoreRows, itabAndRows, Instr.opcode, Instr.mnemonic,
    Instr.mode, Instr.length, encode, Instr.operand, Operand.bytes]

end Sys2Proof
end

