-- ==== Sys2Proof/Laws/State.lean ====
section
/-! SUPPORT. One lemma for each field of State under each update of State, so that no proof unfolds a record update. -/

namespace Sys2Proof.Machine

section Updates

variable (s : State)

@[simp] theorem State.setA_a (v : Byte) : (s.setA v).a = v := rfl
@[simp] theorem State.setA_x (v : Byte) : (s.setA v).x = s.x := rfl
@[simp] theorem State.setA_y (v : Byte) : (s.setA v).y = s.y := rfl
@[simp] theorem State.setA_sp (v : Byte) : (s.setA v).sp = s.sp := rfl
@[simp] theorem State.setA_p (v : Byte) : (s.setA v).p = s.p.setZN v := rfl
@[simp] theorem State.setA_pc (v : Byte) : (s.setA v).pc = s.pc := rfl
@[simp] theorem State.setA_mem (v : Byte) : (s.setA v).mem = s.mem := rfl
@[simp] theorem State.setA_ls (v : Byte) : (s.setA v).ls = s.ls := rfl
@[simp] theorem State.setA_fr (v : Byte) : (s.setA v).fr = s.fr := rfl

@[simp] theorem State.setX_a (v : Byte) : (s.setX v).a = s.a := rfl
@[simp] theorem State.setX_x (v : Byte) : (s.setX v).x = v := rfl
@[simp] theorem State.setX_y (v : Byte) : (s.setX v).y = s.y := rfl
@[simp] theorem State.setX_sp (v : Byte) : (s.setX v).sp = s.sp := rfl
@[simp] theorem State.setX_p (v : Byte) : (s.setX v).p = s.p.setZN v := rfl
@[simp] theorem State.setX_pc (v : Byte) : (s.setX v).pc = s.pc := rfl
@[simp] theorem State.setX_mem (v : Byte) : (s.setX v).mem = s.mem := rfl
@[simp] theorem State.setX_ls (v : Byte) : (s.setX v).ls = s.ls := rfl
@[simp] theorem State.setX_fr (v : Byte) : (s.setX v).fr = s.fr := rfl

@[simp] theorem State.setPc_a (t : Word) : (s.setPc t).a = s.a := rfl
@[simp] theorem State.setPc_x (t : Word) : (s.setPc t).x = s.x := rfl
@[simp] theorem State.setPc_y (t : Word) : (s.setPc t).y = s.y := rfl
@[simp] theorem State.setPc_sp (t : Word) : (s.setPc t).sp = s.sp := rfl
@[simp] theorem State.setPc_p (t : Word) : (s.setPc t).p = s.p := rfl
@[simp] theorem State.setPc_pc (t : Word) : (s.setPc t).pc = t := rfl
@[simp] theorem State.setPc_mem (t : Word) : (s.setPc t).mem = s.mem := rfl
@[simp] theorem State.setPc_ls (t : Word) : (s.setPc t).ls = s.ls := rfl
@[simp] theorem State.setPc_fr (t : Word) : (s.setPc t).fr = s.fr := rfl

@[simp] theorem State.setLs_a (l : Lifecycle) : (s.setLs l).a = s.a := rfl
@[simp] theorem State.setLs_x (l : Lifecycle) : (s.setLs l).x = s.x := rfl
@[simp] theorem State.setLs_y (l : Lifecycle) : (s.setLs l).y = s.y := rfl
@[simp] theorem State.setLs_sp (l : Lifecycle) : (s.setLs l).sp = s.sp := rfl
@[simp] theorem State.setLs_p (l : Lifecycle) : (s.setLs l).p = s.p := rfl
@[simp] theorem State.setLs_pc (l : Lifecycle) : (s.setLs l).pc = s.pc := rfl
@[simp] theorem State.setLs_mem (l : Lifecycle) : (s.setLs l).mem = s.mem := rfl
@[simp] theorem State.setLs_ls (l : Lifecycle) : (s.setLs l).ls = l := rfl
@[simp] theorem State.setLs_fr (l : Lifecycle) : (s.setLs l).fr = s.fr := rfl

@[simp] theorem State.raise_a (r : FaultRecord) : (s.raise r).a = s.a := rfl
@[simp] theorem State.raise_x (r : FaultRecord) : (s.raise r).x = s.x := rfl
@[simp] theorem State.raise_y (r : FaultRecord) : (s.raise r).y = s.y := rfl
@[simp] theorem State.raise_sp (r : FaultRecord) : (s.raise r).sp = s.sp := rfl
@[simp] theorem State.raise_p (r : FaultRecord) : (s.raise r).p = s.p := rfl
@[simp] theorem State.raise_pc (r : FaultRecord) : (s.raise r).pc = s.pc := rfl
@[simp] theorem State.raise_mem (r : FaultRecord) : (s.raise r).mem = s.mem := rfl
@[simp] theorem State.raise_ls (r : FaultRecord) : (s.raise r).ls = .faulted := rfl
@[simp] theorem State.raise_fr (r : FaultRecord) : (s.raise r).fr = some r := rfl

@[simp] theorem State.clearFault_a : (s.clearFault).a = s.a := rfl
@[simp] theorem State.clearFault_x : (s.clearFault).x = s.x := rfl
@[simp] theorem State.clearFault_y : (s.clearFault).y = s.y := rfl
@[simp] theorem State.clearFault_sp : (s.clearFault).sp = s.sp := rfl
@[simp] theorem State.clearFault_p : (s.clearFault).p = s.p := rfl
@[simp] theorem State.clearFault_pc : (s.clearFault).pc = s.pc := rfl
@[simp] theorem State.clearFault_mem : (s.clearFault).mem = s.mem := rfl
@[simp] theorem State.clearFault_ls : (s.clearFault).ls = s.ls := rfl
@[simp] theorem State.clearFault_fr : (s.clearFault).fr = none := rfl

@[simp] theorem State.advance_a : (s.advance).a = s.a := rfl
@[simp] theorem State.advance_x : (s.advance).x = s.x := rfl
@[simp] theorem State.advance_y : (s.advance).y = s.y := rfl
@[simp] theorem State.advance_sp : (s.advance).sp = s.sp := rfl
@[simp] theorem State.advance_p : (s.advance).p = s.p := rfl
@[simp] theorem State.advance_pc : (s.advance).pc = s.pc + 1 := rfl
@[simp] theorem State.advance_mem : (s.advance).mem = s.mem := rfl
@[simp] theorem State.advance_ls : (s.advance).ls = s.ls := rfl
@[simp] theorem State.advance_fr : (s.advance).fr = s.fr := rfl

@[simp] theorem State.write_a (b : Word) (v : Byte) : (s.write b v).a = s.a := rfl
@[simp] theorem State.write_x (b : Word) (v : Byte) : (s.write b v).x = s.x := rfl
@[simp] theorem State.write_y (b : Word) (v : Byte) : (s.write b v).y = s.y := rfl
@[simp] theorem State.write_sp (b : Word) (v : Byte) : (s.write b v).sp = s.sp := rfl
@[simp] theorem State.write_p (b : Word) (v : Byte) : (s.write b v).p = s.p := rfl
@[simp] theorem State.write_pc (b : Word) (v : Byte) : (s.write b v).pc = s.pc := rfl
@[simp] theorem State.write_mem (b : Word) (v : Byte) : (s.write b v).mem = writeCell s.mem b.toNat v := rfl
@[simp] theorem State.write_ls (b : Word) (v : Byte) : (s.write b v).ls = s.ls := rfl
@[simp] theorem State.write_fr (b : Word) (v : Byte) : (s.write b v).fr = s.fr := rfl

end Updates

/-! ## The flags under `setZN` and the carry port -/

section FlagUpdates

variable (p : Flags)

@[simp] theorem Flags.setZN_zero (r : Byte) : (p.setZN r).zero = decide (r = 0x00) := rfl
@[simp] theorem Flags.setZN_negative (r : Byte) : (p.setZN r).negative = r[7] := rfl
@[simp] theorem Flags.setZN_carry (r : Byte) : (p.setZN r).carry = p.carry := rfl
@[simp] theorem Flags.setZN_interruptDisable (r : Byte) : (p.setZN r).interruptDisable = p.interruptDisable := rfl
@[simp] theorem Flags.setZN_decimalMode (r : Byte) : (p.setZN r).decimalMode = p.decimalMode := rfl
@[simp] theorem Flags.setZN_breakFlag (r : Byte) : (p.setZN r).breakFlag = p.breakFlag := rfl
@[simp] theorem Flags.setZN_break2 (r : Byte) : (p.setZN r).break2 = p.break2 := rfl
@[simp] theorem Flags.setZN_overflow (r : Byte) : (p.setZN r).overflow = p.overflow := rfl
@[simp] theorem Flags.setCarry_carry : p.setCarry.carry = true := rfl
@[simp] theorem Flags.clearCarry_carry : p.clearCarry.carry = false := rfl

/-- Zero and Negative are never both set by a result (10_state.md R16). -/
theorem Flags.setZN_not_both (r : Byte) : ¬((p.setZN r).zero = true ∧ (p.setZN r).negative = true) := by
  rintro ⟨hz, hn⟩
  obtain rfl : r = 0x00 := by simpa using hz
  simp at hn

end FlagUpdates

end Sys2Proof.Machine
end

