-- ==== Sys2Proof/Laws/Memory.lean ====
section
/-! SUPPORT. The laws of memory: a read after a write, and that every memory operation keeps the canonical form. -/

namespace Sys2Proof.Machine

/-! ## The list of cells -/

theorem readCell_of_not_mem {m : Memory} {a : Nat} (h : ∀ c ∈ m, c.1 ≠ a) : readCell m a = unlistedByte := by
  induction m with
  | nil => rfl
  | cons c m ih =>
    obtain ⟨k, v⟩ := c
    simp only [List.mem_cons, forall_eq_or_imp] at h
    simp [readCell, h.1, ih h.2]

/-- A write leaves every other cell as it was, in any list. -/
theorem readCell_writeCell_ne (m : Memory) {a b : Nat} (v : Byte) (h : b ≠ a) :
    readCell (writeCell m a v) b = readCell m b := by
  induction m with
  | nil => unfold writeCell; split <;> simp [readCell, Ne.symm h]
  | cons c m ih =>
    obtain ⟨k, w⟩ := c
    unfold writeCell
    split
    · split <;> simp [readCell, Ne.symm h]
    · split
      · next hk => subst hk; split <;> simp [readCell, Ne.symm h]
      · simp [readCell, ih]

/-- A write is read back, in a list whose addresses rise. -/
theorem readCell_writeCell_same {m : Memory} (a : Nat) (v : Byte) (h : m.Pairwise (fun c d => c.1 < d.1)) :
    readCell (writeCell m a v) a = v := by
  induction m with
  | nil => unfold writeCell; split <;> simp_all [readCell]
  | cons c m ih =>
    obtain ⟨k, w⟩ := c
    obtain ⟨hhead, htail⟩ := List.pairwise_cons.1 h
    have absent : a ≤ k → readCell m a = unlistedByte := fun hak =>
      readCell_of_not_mem fun c hc => by have := hhead c hc; simp only at this; omega
    unfold writeCell
    split
    · next hak => split <;> simp_all [readCell, Nat.ne_of_gt hak, absent (Nat.le_of_lt hak)]
    · split
      · next hk => subst hk; split <;> simp_all [readCell]
      · next hk => simp [readCell, Ne.symm hk, ih htail]

/-- Every entry of a written list is the new cell or an old entry. -/
theorem mem_writeCell {m : Memory} {a : Nat} {v : Byte} {c : Host.Cell} (h : c ∈ writeCell m a v) :
    (c = (a, v) ∧ v ≠ unlistedByte) ∨ c ∈ m := by
  induction m with
  | nil => unfold writeCell at h; split at h <;> simp_all
  | cons d m ih =>
    obtain ⟨k, w⟩ := d
    unfold writeCell at h
    split at h
    · split at h <;> simp_all
    · split at h
      · split at h <;> simp_all; tauto
      · rcases List.mem_cons.1 h with h | h
        · exact .inr (by simp [h])
        · exact (ih h).imp_right (List.mem_cons_of_mem _)

/-- A write keeps the canonical form. -/
theorem wf_writeCell {m : Memory} {a : Nat} (v : Byte) (ha : a < 0x10000) (h : Memory.wf m) :
    Memory.wf (writeCell m a v) := by
  obtain ⟨hp, hc⟩ := h
  refine ⟨?_, fun c hmem => ?_⟩
  · clear hc
    induction m with
    | nil => unfold writeCell; split <;> simp
    | cons d m ih =>
      obtain ⟨k, w⟩ := d
      obtain ⟨hhead, htail⟩ := List.pairwise_cons.1 hp
      unfold writeCell
      split
      · next hak =>
        split
        · exact hp
        · refine List.pairwise_cons.2 ⟨fun c hmem => ?_, hp⟩
          rcases List.mem_cons.1 hmem with rfl | hmem
          · exact hak
          · have := hhead c hmem; simp only at this ⊢; omega
      · split
        · next hk =>
          subst hk
          split
          · exact htail
          · exact List.pairwise_cons.2 ⟨hhead, htail⟩
        · next hlt hne =>
          refine List.pairwise_cons.2 ⟨fun c hmem => ?_, ih htail⟩
          rcases mem_writeCell hmem with ⟨rfl, -⟩ | hmem
          · simp only; omega
          · exact hhead c hmem
  · rcases mem_writeCell hmem with ⟨rfl, hv⟩ | hmem
    · exact ⟨ha, hv⟩
    · exact hc c hmem

/-! ## The operations of State -/

theorem State.read_write_same {s : State} (h : Memory.wf s.mem) (b : Word) (v : Byte) : (s.write b v).read b = v :=
  readCell_writeCell_same _ _ h.1

theorem State.read_write_ne (s : State) {b c : Word} (v : Byte) (h : c ≠ b) : (s.write b v).read c = s.read c :=
  readCell_writeCell_ne _ _ fun e => h (BitVec.eq_of_toNat_eq e)

theorem State.wf_write {s : State} (h : Memory.wf s.mem) (b : Word) (v : Byte) : Memory.wf (s.write b v).mem :=
  wf_writeCell v b.isLt h

theorem State.wf_writeWord {s : State} (h : Memory.wf s.mem) (b : Word) (v : Word) : Memory.wf (s.writeWord b v).mem :=
  State.wf_write (State.wf_write h _ _) _ _

theorem State.wf_writeBytes {s : State} (h : Memory.wf s.mem) (vs : List Byte) (b : Word) :
    Memory.wf (State.writeBytes vs b s).mem := by
  induction vs generalizing b s with
  | nil => exact h
  | cons v vs ih => exact ih (State.wf_write h b v) _

theorem State.wf_loadImage {s t : State} (h : Memory.wf s.mem) {vs : List Byte} {b : Word}
    (hl : s.loadImage vs b = some t) : Memory.wf t.mem := by
  unfold State.loadImage at hl
  split at hl
  · exact Option.some.inj hl ▸ State.wf_writeBytes h vs b
  · cases hl

theorem State.wf_placeWord {s : State} (h : Memory.wf s.mem) (n w : Nat) : Memory.wf (s.placeWord n w).mem := by
  have := State.wf_writeBytes h (tableBytes n w) s.pc
  simp only [State.placeWord]
  split <;> simpa using this

theorem State.wf_reset : Memory.wf State.reset.mem := by decide

/-- Writing bytes changes memory only: the state is the old one with another memory. -/
theorem State.writeBytes_eq (vs : List Byte) (b : Word) (s : State) :
    State.writeBytes vs b s = { s with mem := (State.writeBytes vs b s).mem } := by
  induction vs generalizing b s with
  | nil => rfl
  | cons v vs ih => rw [State.writeBytes, ih]; rfl

/-- The bytes written from an address upwards, short of the end of memory, leave every cell outside them as it was. -/
theorem State.read_writeBytes_outside {vs : List Byte} {b : Word} {s : State} {c : Word}
    (h : vs = [] ∨ b.toNat + vs.length ≤ 0x10000 ∧ (c.toNat < b.toNat ∨ b.toNat + vs.length ≤ c.toNat)) :
    (State.writeBytes vs b s).read c = s.read c := by
  induction vs generalizing b s with
  | nil => rfl
  | cons v vs ih =>
    simp only [List.length_cons, reduceCtorEq, false_or] at h
    obtain ⟨h, hc⟩ := h
    rw [State.writeBytes, ih, State.read_write_ne]
    · rintro rfl; omega
    · by_cases hv : vs = []
      · exact .inl hv
      · have : 0 < vs.length := List.length_pos_iff.2 hv
        have hb : (b + 1).toNat = b.toNat + 1 := by simp; omega
        exact .inr ⟨by omega, by omega⟩

/-- The bytes written from an address upwards, short of the end of memory, are read back there. -/
theorem State.read_writeBytes_inside {s : State} (hwf : Memory.wf s.mem) {vs : List Byte} {b : Word}
    (h : b.toNat + vs.length ≤ 0x10000) (k : Nat) (hk : k < vs.length) :
    (State.writeBytes vs b s).read (b + BitVec.ofNat 16 k) = vs[k] := by
  induction vs generalizing b s k with
  | nil => simp at hk
  | cons v vs ih =>
    simp only [List.length_cons] at h hk
    cases k with
    | zero =>
      rw [State.writeBytes, State.read_writeBytes_outside]
      · simp [State.read_write_same hwf]
      · by_cases hv : vs = []
        · exact .inl hv
        · have : 0 < vs.length := List.length_pos_iff.2 hv
          refine .inr ⟨?_, .inl ?_⟩ <;> simp <;> omega
    | succ k =>
      have e : b + BitVec.ofNat 16 (k + 1) = b + 1 + BitVec.ofNat 16 k := by
        rw [BitVec.add_assoc, Nat.add_comm k 1, BitVec.ofNat_add]; rfl
      have hb : (b + 1).toNat = b.toNat + 1 := by simp; omega
      rw [e, State.writeBytes, ih (State.wf_write hwf b v) (by omega) k (by omega)]
      rfl

/-! ## A read under the updates that leave memory alone -/

section Reads

variable (s : State) (b : Word)

@[simp] theorem State.read_setA (v : Byte) : (s.setA v).read b = s.read b := rfl
@[simp] theorem State.read_setX (v : Byte) : (s.setX v).read b = s.read b := rfl
@[simp] theorem State.read_setPc (t : Word) : (s.setPc t).read b = s.read b := rfl
@[simp] theorem State.read_setLs (l : Lifecycle) : (s.setLs l).read b = s.read b := rfl
@[simp] theorem State.read_raise (r : FaultRecord) : (s.raise r).read b = s.read b := rfl
@[simp] theorem State.read_clearFault : s.clearFault.read b = s.read b := rfl
@[simp] theorem State.read_advance : s.advance.read b = s.read b := rfl

end Reads

end Sys2Proof.Machine
end

