-- ==== Sys2Proof/Laws/PerInstr.lean ====
section
/-! SUPPORT. Statements made of each instruction as syntax. `EncodedForm`: the row, the length and the bytes of an
instruction (30_encoding.md R50, R52, R56, R58). -/

namespace Sys2Proof.Laws.EncodedForm

/-- The instruction has a row in `ITAB_DEFAULT`, its encoding is its opcode byte and as many operand bytes as its mode
takes, and its row's mnemonic needs an address exactly if its mode gives one. -/
def Statement (i : Instr) : Prop :=
  i.wellFormed itabDefault = true ∧ (encode i).head? = some i.opcode ∧ (encode i).length = 1 + i.mode.operandBytes ∧
    i.mnemonic.needsAddress = (i.mode != .noneAddressing) ∧
    itabDefault.opcodeOf i.mnemonic i.mode = some i.opcode

theorem ldaImm (d8 : Byte) : Statement (.ldaImm d8) := ⟨rfl, rfl, rfl, rfl, rfl⟩
theorem ldaZp (d8 : Byte) : Statement (.ldaZp d8) := ⟨rfl, rfl, rfl, rfl, rfl⟩
theorem ldaZpX (d8 : Byte) : Statement (.ldaZpX d8) := ⟨rfl, rfl, rfl, rfl, rfl⟩
theorem ldaAbs (a16 : Word) : Statement (.ldaAbs a16) := ⟨rfl, rfl, rfl, rfl, rfl⟩
theorem ldaAbsX (a16 : Word) : Statement (.ldaAbsX a16) := ⟨rfl, rfl, rfl, rfl, rfl⟩
theorem ldaAbsY (a16 : Word) : Statement (.ldaAbsY a16) := ⟨rfl, rfl, rfl, rfl, rfl⟩
theorem ldaIndX (d8 : Byte) : Statement (.ldaIndX d8) := ⟨rfl, rfl, rfl, rfl, rfl⟩
theorem ldaIndY (d8 : Byte) : Statement (.ldaIndY d8) := ⟨rfl, rfl, rfl, rfl, rfl⟩
theorem staZp (d8 : Byte) : Statement (.staZp d8) := ⟨rfl, rfl, rfl, rfl, rfl⟩
theorem staZpX (d8 : Byte) : Statement (.staZpX d8) := ⟨rfl, rfl, rfl, rfl, rfl⟩
theorem staAbs (a16 : Word) : Statement (.staAbs a16) := ⟨rfl, rfl, rfl, rfl, rfl⟩
theorem staAbsX (a16 : Word) : Statement (.staAbsX a16) := ⟨rfl, rfl, rfl, rfl, rfl⟩
theorem staAbsY (a16 : Word) : Statement (.staAbsY a16) := ⟨rfl, rfl, rfl, rfl, rfl⟩
theorem staIndX (d8 : Byte) : Statement (.staIndX d8) := ⟨rfl, rfl, rfl, rfl, rfl⟩
theorem staIndY (d8 : Byte) : Statement (.staIndY d8) := ⟨rfl, rfl, rfl, rfl, rfl⟩
theorem andImm (d8 : Byte) : Statement (.andImm d8) := ⟨rfl, rfl, rfl, rfl, rfl⟩
theorem andZp (d8 : Byte) : Statement (.andZp d8) := ⟨rfl, rfl, rfl, rfl, rfl⟩
theorem andZpX (d8 : Byte) : Statement (.andZpX d8) := ⟨rfl, rfl, rfl, rfl, rfl⟩
theorem andAbs (a16 : Word) : Statement (.andAbs a16) := ⟨rfl, rfl, rfl, rfl, rfl⟩
theorem andAbsX (a16 : Word) : Statement (.andAbsX a16) := ⟨rfl, rfl, rfl, rfl, rfl⟩
theorem andAbsY (a16 : Word) : Statement (.andAbsY a16) := ⟨rfl, rfl, rfl, rfl, rfl⟩
theorem andIndX (d8 : Byte) : Statement (.andIndX d8) := ⟨rfl, rfl, rfl, rfl, rfl⟩
theorem andIndY (d8 : Byte) : Statement (.andIndY d8) := ⟨rfl, rfl, rfl, rfl, rfl⟩
theorem tax : Statement .tax := ⟨rfl, rfl, rfl, rfl, rfl⟩
theorem inx : Statement .inx := ⟨rfl, rfl, rfl, rfl, rfl⟩
theorem brk : Statement .brk := ⟨rfl, rfl, rfl, rfl, rfl⟩

end Sys2Proof.Laws.EncodedForm
end

