-- ==== Sys2Proof/Laws/Step.lean ====
section
/-! SUPPORT. What each shared operation of a step can do, said once: the handlers, the meanings, the fetch, one instruction,
the step by lifecycle state, and the commands `load` and `run`. A proof about steps cites these and unfolds none of them. -/

namespace Sys2Proof.Machine

/-! ## Settling, and the fetch under a change of `ls` -/

section Settle

variable (s : State)

@[simp] theorem State.settle_a : s.settle.a = s.a := by unfold State.settle; split <;> rfl
@[simp] theorem State.settle_x : s.settle.x = s.x := by unfold State.settle; split <;> rfl
@[simp] theorem State.settle_y : s.settle.y = s.y := by unfold State.settle; split <;> rfl
@[simp] theorem State.settle_sp : s.settle.sp = s.sp := by unfold State.settle; split <;> rfl
@[simp] theorem State.settle_p : s.settle.p = s.p := by unfold State.settle; split <;> rfl
@[simp] theorem State.settle_pc : s.settle.pc = s.pc := by unfold State.settle; split <;> rfl
@[simp] theorem State.settle_mem : s.settle.mem = s.mem := by unfold State.settle; split <;> rfl
@[simp] theorem State.settle_fr : s.settle.fr = s.fr := by unfold State.settle; split <;> rfl
@[simp] theorem State.read_settle (b : Word) : s.settle.read b = s.read b := by unfold State.settle; split <;> rfl

theorem State.settle_ls : s.settle.ls = if s.ls = .running then .ready else s.ls := by
  unfold State.settle; split <;> simp [*]

@[simp] theorem State.opcodeByte_setLs (l : Lifecycle) : (s.setLs l).opcodeByte = s.opcodeByte := rfl
@[simp] theorem State.fetchBytes_setLs (l : Lifecycle) : (s.setLs l).fetchBytes = s.fetchBytes := rfl

end Settle

/-! ## Handlers and meanings -/

/-- Only NoneAddressing has no effective address (41_addressing_modes.md R100). -/
theorem State.effectiveAddress_eq_none {s : State} {r : IndyReading} {m : Mode} :
    s.effectiveAddress r m = none ↔ m = .noneAddressing := by
  cases m <;> simp [State.effectiveAddress]

/-- What the dispatch of a pair can end in: five ways, and no other. -/
theorem dispatch_cases (r : IndyReading) (mn : Mnemonic) (m : Mode) (s : State) :
    (∃ v, (mn = .lda ∨ mn = .and) ∧ dispatch r mn m s = .returned (s.setA v) false) ∨
    (∃ v, (mn = .tax ∨ mn = .inx) ∧ dispatch r mn m s = .returned (s.setX v) false) ∨
    (∃ ea, mn = .sta ∧ dispatch r mn m s = .returned (s.write ea s.a) false) ∨
    (mn = .brk ∧ dispatch r mn m s = .ended (s.setLs .halted)) ∨
    (mn.needsAddress = true ∧ m = .noneAddressing ∧ dispatch r mn m s = .ended (s.raise .invalidAddressingRequest)) := by
  have hea : s.effectiveAddress r m = none → m = .noneAddressing := State.effectiveAddress_eq_none.1
  cases mn <;> simp only [dispatch, handleLda, handleAnd, handleSta, withAddress, handleTax, handleInx, handleBrk,
    Mnemonic.needsAddress]
  case tax => exact .inr (.inl ⟨_, .inl trivial, rfl⟩)
  case inx => exact .inr (.inl ⟨_, .inr trivial, rfl⟩)
  case brk => exact .inr (.inr (.inr (.inl (by simp))))
  all_goals cases h : s.effectiveAddress r m
  case lda.none | sta.none | and.none => exact .inr (.inr (.inr (.inr ⟨trivial, hea h, rfl⟩)))
  case lda.some => exact .inl ⟨_, .inl trivial, rfl⟩
  case and.some => exact .inl ⟨_, .inr trivial, rfl⟩
  case sta.some ea => exact .inr (.inr (.inl ⟨ea, trivial, rfl⟩))

/-- What a meaning can do: it always answers a next state, in one of four ways. -/
theorem exec_cases (i : Instr) (s : State) :
    (∃ v n, (i.mnemonic = .lda ∨ i.mnemonic = .and) ∧ exec i s = .next ((s.setA v).setPc (s.pc + n))) ∨
    (∃ v, (i.mnemonic = .tax ∨ i.mnemonic = .inx) ∧ exec i s = .next ((s.setX v).setPc (s.pc + 0))) ∨
    (∃ ea n, i.mnemonic = .sta ∧ exec i s = .next ((s.write ea s.a).setPc (s.pc + n))) ∨
    (i.mnemonic = .brk ∧ exec i s = .next (s.setLs .halted)) := by
  cases i
  all_goals first
    | exact .inl ⟨_, _, .inl rfl, rfl⟩
    | exact .inl ⟨_, _, .inr rfl, rfl⟩
    | exact .inr (.inl ⟨_, .inl rfl, rfl⟩)
    | exact .inr (.inl ⟨_, .inr rfl, rfl⟩)
    | exact .inr (.inr (.inl ⟨_, _, rfl, rfl⟩))
    | exact .inr (.inr (.inr ⟨rfl, rfl⟩))

/-! ## One instruction -/

theorem word_succ_succ (b : Word) : b + 1#16 + 1#16 = b + 2#16 := by rw [BitVec.add_assoc]; rfl

/-- The fetch and decode at `pc`: no row and the decoder's rejection by name, or the row and the instruction of that
row, whose meaning is the handler of the row's pair at the resolver's address. -/
theorem fetch_cases (s : State) :
    (itabDefault.lookup s.opcodeByte = none ∧ decode s.fetchBytes = .error (.unrecognizedOpcode s.opcodeByte)) ∨
    ∃ d i rest, itabDefault.lookup s.opcodeByte = some d ∧ decode s.fetchBytes = .ok (i, rest) ∧
      i.mnemonic = d.mnemonic ∧ i.mode = d.mode ∧ i.opcode = s.opcodeByte ∧ i.length = d.length ∧
      exec i s.advance = .next (pcMux d.length (dispatch indyReading d.mnemonic d.mode s.advance)) := by
  cases hl : itabDefault.lookup s.opcodeByte with
  | none =>
    exact .inl ⟨rfl, by simp only [State.opcodeByte] at hl; simp [decode, decodeWith, State.fetchBytes, hl, State.opcodeByte]⟩
  | some d =>
    right
    obtain ⟨hd, hop⟩ := mem_of_lookup hl
    simp only [State.opcodeByte] at hl
    simp only [itabDefault, itabSource, itabLoadRows, itabStoreRows, itabAndRows, List.cons_append, List.nil_append,
      List.mem_cons, List.not_mem_nil, or_false] at hd
    rcases hd with rfl | rfl | rfl | rfl | rfl | rfl | rfl | rfl | rfl | rfl | rfl | rfl | rfl | rfl | rfl | rfl | rfl |
      rfl | rfl | rfl | rfl | rfl | rfl | rfl | rfl | rfl
    all_goals
      simp only [decode, decodeWith, State.fetchBytes, hl, takeOperand, Instr.ofForm, Instr.ldaForm, Instr.staForm,
        Instr.andForm, Instr.impliedForm]
      refine ⟨_, _, _, rfl, rfl, rfl, rfl, hop, rfl, ?_⟩
      simp [exec, execLdaImm, execLdaZp, execLdaZpX, execLdaAbs, execLdaAbsX, execLdaAbsY, execLdaIndX, execLdaIndY,
        execStaZp, execStaZpX, execStaAbs, execStaAbsX, execStaAbsY, execStaIndX, execStaIndY,
        execAndImm, execAndZp, execAndZpX, execAndAbs, execAndAbsX, execAndAbsY, execAndIndX, execAndIndY,
        execTax, execInx, execBrk, dispatch, handleLda, handleSta, handleAnd, withAddress, State.effectiveAddress,
        State.readWord, word_succ_succ]

/-- What one instruction of the machine with arguments can do, by the row of its opcode byte. -/
theorem tableInstruction_cases (params : Params) (s : State) :
    (params.itab.lookup s.opcodeByte = none ∧
      tableInstruction params s = s.advance.raise (.unrecognizedOpcode s.opcodeByte s.pc)) ∨
    ∃ d, params.itab.lookup s.opcodeByte = some d ∧
      ((∃ v, (d.mnemonic = .lda ∨ d.mnemonic = .and) ∧
          tableInstruction params s = (s.advance.setA v).setPc (s.pc + 1 + BitVec.ofNat 16 (d.length - 1))) ∨
        (∃ v, (d.mnemonic = .tax ∨ d.mnemonic = .inx) ∧
          tableInstruction params s = (s.advance.setX v).setPc (s.pc + 1 + BitVec.ofNat 16 (d.length - 1))) ∨
        (∃ ea, d.mnemonic = .sta ∧
          tableInstruction params s = (s.advance.write ea s.a).setPc (s.pc + 1 + BitVec.ofNat 16 (d.length - 1))) ∨
        (d.mnemonic = .brk ∧ tableInstruction params s = s.advance.setLs .halted) ∨
        (d.mnemonic.needsAddress = true ∧ d.mode = .noneAddressing ∧
          tableInstruction params s = s.advance.raise .invalidAddressingRequest)) := by
  cases hl : params.itab.lookup s.opcodeByte with
  | none => exact .inl ⟨rfl, by simp [tableInstruction, hl]⟩
  | some d =>
    refine .inr ⟨d, rfl, ?_⟩
    have e : tableInstruction params s = pcMux d.length (dispatch params.reading d.mnemonic d.mode s.advance) := by
      simp [tableInstruction, hl]
    rw [e]
    rcases dispatch_cases params.reading d.mnemonic d.mode s.advance with
      ⟨v, h1, h⟩ | ⟨v, h1, h⟩ | ⟨ea, h1, h⟩ | ⟨h1, h⟩ | ⟨h1, h2, h⟩ <;> rw [h]
    · exact .inl ⟨v, h1, rfl⟩
    · exact .inr (.inl ⟨v, h1, rfl⟩)
    · exact .inr (.inr (.inl ⟨ea, h1, rfl⟩))
    · exact .inr (.inr (.inr (.inl ⟨h1, rfl⟩)))
    · exact .inr (.inr (.inr (.inr ⟨h1, h2, rfl⟩)))

/-! ## The step -/

/-- What a step that answers a next state has done: it ran one instruction in Running and, if it was not Running
before, settled. -/
theorem step_next {s t : State} (h : step s = .next t) :
    s.ls ≠ .faulted ∧ ∃ u, runInstruction (s.setLs .running) = .next u ∧ t = if s.ls = .running then u else u.settle := by
  unfold step machineStep lifecycleStep at h
  cases hl : s.ls <;> simp only [hl, reduceCtorEq] at h
  case running =>
    have e : s.setLs .running = s := by rw [← hl]; rfl
    exact ⟨by simp, t, by rw [e]; exact h, by simp⟩
  all_goals
    refine ⟨by simp, ?_⟩
    cases hr : runInstruction (s.setLs .running) <;> simp only [hr, mapNext, reduceCtorEq, Host.Outcome.next.injEq] at h
    exact ⟨_, rfl, by simp [h]⟩

/-! ## Commands -/

/-- When the inspection port shows something, and what (70_reset_and_hazards.md R207). -/
theorem State.inspect_eq_some {s : State} {v : Inspection} : s.inspect = some v ↔ s.ls ≠ .running ∧ v = s.shown := by
  unfold State.inspect; split <;> simp [*, @eq_comm _ v]

theorem State.inspect_eq_none {s : State} : s.inspect = none ↔ s.ls = .running := by
  unfold State.inspect; split <;> simp [*]

/-- What `load` can answer (70_reset_and_hazards.md R201, R205, 60_exceptions.md R173). -/
theorem loadCommand_cases (bytes : List Byte) (s : State) :
    (s.ls = .running ∧ loadCommand bytes s = (s, .notAccepted)) ∨
    (s.ls ≠ .running ∧ 0x8000 < bytes.length ∧ loadCommand bytes s = (s, .imageOverflow)) ∨
    (s.ls ≠ .running ∧ bytes.length ≤ 0x8000 ∧ loadCommand bytes s =
      ((((State.writeBytes bytes 0x8000 s).writeWord 0xFFFC 0x8000).clearFault).setLs .loaded, .done)) := by
  unfold loadCommand State.loadImage
  have e : (Config.programBase.toNat + bytes.length ≤ Config.memSize) ↔ bytes.length ≤ 0x8000 := by
    show 32768 + bytes.length ≤ 65536 ↔ _
    omega
  by_cases h : s.ls = .running
  · exact .inl ⟨h, by rw [if_pos h]⟩
  · rw [if_neg h]
    by_cases hb : bytes.length ≤ 0x8000
    · exact .inr (.inr ⟨h, hb, by rw [if_pos (e.2 hb)]⟩)
    · exact .inr (.inl ⟨h, by omega, by rw [if_neg (mt e.1 hb)]⟩)

/-- A machine that is not Running does not move, whatever the fuel. -/
theorem runLoop_of_not_running (n : Nat) {s : State} (h : s.ls ≠ .running) : runLoop n s = s := by
  cases n <;> simp [runLoop, h]

/-- What every instruction keeps in Running, the loop keeps. -/
theorem runLoop_keeps {P : State → Prop} (hP : ∀ s t, s.ls = .running → P s → runInstruction s = .next t → P t)
    (n : Nat) {s : State} (h : P s) : P (runLoop n s) := by
  induction n generalizing s with
  | zero => exact h
  | succ n ih =>
    rw [runLoop]
    split
    · next hl =>
      split
      · next t ht => exact ih (hP s t hl h ht)
      · exact h
      · exact h
    · exact h

end Sys2Proof.Machine
end

