-- ==== Sys2Proof/Tests/Slice0.lean ====
section
/-! SUPPORT. The model's own tests. Expected results stand in spec/: the encodings of 30_encoding.md R50, R52 and R58, and the
rows of 95_test_vectors.md, part 2, under the row's own name. Then a witness for the hypotheses of each statement. -/

namespace Sys2Proof.Tests

open Sys2Proof Sys2Proof.Machine

/-! ## Well-formedness (30_encoding.md R56) -/

theorem test_wf_default : itabDefault.wf = true := by decide

theorem test_wf_source : itabSource.wf = true := by decide

/-- Two rows of one opcode: item 1 refuses. -/
theorem test_wf_refuses_equal_keys :
    ITab.uniqueKeys [⟨0xA9, .lda, .immediate, 2, 2, false⟩, ⟨0xA9, .and, .immediate, 2, 2, false⟩] = false := by decide

/-- An Absolute row of length 2: item 2 refuses. -/
theorem test_wf_refuses_wrong_length : ITab.lengthsAgree [⟨0xAD, .lda, .absolute, 2, 4, false⟩] = false := by decide

/-- A STA row without an address: item 3 refuses. -/
theorem test_wf_refuses_sta_without_address :
    ITab.modesAgree [⟨0x85, .sta, .noneAddressing, 1, 2, false⟩] = false := by decide

/-- A TAX row with an address: item 3 refuses. -/
theorem test_wf_refuses_tax_with_address : ITab.modesAgree [⟨0xAA, .tax, .zeroPage, 2, 2, false⟩] = false := by decide

/-- A BRK row at 0x01: item 4 refuses. -/
theorem test_wf_refuses_halt_elsewhere : ITab.oneHalt [⟨0x01, .brk, .noneAddressing, 1, 7, false⟩] = false := by decide

/-- No BRK row: item 4 refuses, and with it the whole. -/
theorem test_wf_refuses_no_halt : ITab.wf [⟨0xE8, .inx, .noneAddressing, 1, 2, false⟩] = false := by decide

/-- STA is no row of `ITAB_SOURCE` (R57). -/
theorem test_wf_refuses_sta_under_source : (Instr.staZp 0x10).wellFormed itabSource = false := by decide

/-! ## Decoding, one word for each constructor -/

theorem test_decode_ldaImm : decode [0xA9, 0xC0, 0x77] = .ok (.ldaImm 0xC0, [0x77]) := by rfl

theorem test_decode_ldaZp : decode [0xA5, 0xC0, 0x77] = .ok (.ldaZp 0xC0, [0x77]) := by rfl

theorem test_decode_ldaZpX : decode [0xB5, 0xC0, 0x77] = .ok (.ldaZpX 0xC0, [0x77]) := by rfl

theorem test_decode_ldaAbs : decode [0xAD, 0x34, 0x12, 0x77] = .ok (.ldaAbs 0x1234, [0x77]) := by rfl

theorem test_decode_ldaAbsX : decode [0xBD, 0x34, 0x12, 0x77] = .ok (.ldaAbsX 0x1234, [0x77]) := by rfl

theorem test_decode_ldaAbsY : decode [0xB9, 0x34, 0x12, 0x77] = .ok (.ldaAbsY 0x1234, [0x77]) := by rfl

theorem test_decode_ldaIndX : decode [0xA1, 0xC0, 0x77] = .ok (.ldaIndX 0xC0, [0x77]) := by rfl

theorem test_decode_ldaIndY : decode [0xB1, 0xC0, 0x77] = .ok (.ldaIndY 0xC0, [0x77]) := by rfl

theorem test_decode_staZp : decode [0x85, 0xC0, 0x77] = .ok (.staZp 0xC0, [0x77]) := by rfl

theorem test_decode_staZpX : decode [0x95, 0xC0, 0x77] = .ok (.staZpX 0xC0, [0x77]) := by rfl

theorem test_decode_staAbs : decode [0x8D, 0x34, 0x12, 0x77] = .ok (.staAbs 0x1234, [0x77]) := by rfl

theorem test_decode_staAbsX : decode [0x9D, 0x34, 0x12, 0x77] = .ok (.staAbsX 0x1234, [0x77]) := by rfl

theorem test_decode_staAbsY : decode [0x99, 0x34, 0x12, 0x77] = .ok (.staAbsY 0x1234, [0x77]) := by rfl

theorem test_decode_staIndX : decode [0x81, 0xC0, 0x77] = .ok (.staIndX 0xC0, [0x77]) := by rfl

theorem test_decode_staIndY : decode [0x91, 0xC0, 0x77] = .ok (.staIndY 0xC0, [0x77]) := by rfl

theorem test_decode_andImm : decode [0x29, 0xC0, 0x77] = .ok (.andImm 0xC0, [0x77]) := by rfl

theorem test_decode_andZp : decode [0x25, 0xC0, 0x77] = .ok (.andZp 0xC0, [0x77]) := by rfl

theorem test_decode_andZpX : decode [0x35, 0xC0, 0x77] = .ok (.andZpX 0xC0, [0x77]) := by rfl

theorem test_decode_andAbs : decode [0x2D, 0x34, 0x12, 0x77] = .ok (.andAbs 0x1234, [0x77]) := by rfl

theorem test_decode_andAbsX : decode [0x3D, 0x34, 0x12, 0x77] = .ok (.andAbsX 0x1234, [0x77]) := by rfl

theorem test_decode_andAbsY : decode [0x39, 0x34, 0x12, 0x77] = .ok (.andAbsY 0x1234, [0x77]) := by rfl

theorem test_decode_andIndX : decode [0x21, 0xC0, 0x77] = .ok (.andIndX 0xC0, [0x77]) := by rfl

theorem test_decode_andIndY : decode [0x31, 0xC0, 0x77] = .ok (.andIndY 0xC0, [0x77]) := by rfl

theorem test_decode_tax : decode [0xAA, 0x77] = .ok (.tax, [0x77]) := by rfl

theorem test_decode_inx : decode [0xE8, 0x77] = .ok (.inx, [0x77]) := by rfl

theorem test_decode_brk : decode [0x00, 0x77] = .ok (.brk, [0x77]) := by rfl

theorem test_decode_rejects_0x02 : decode [0x02, 0xA9, 0x00] = .error (.unrecognizedOpcode 0x02) := by rfl

theorem test_decode_rejects_cut_operand : decode [0xAD, 0x34] = .error (.truncated 0xAD) := by rfl

theorem test_decode_rejects_nothing : decode [] = .error .noByte := by rfl

theorem test_decode_names_a_form_without_constructor :
    decodeWith [⟨0x89, .sta, .immediate, 2, 2, false⟩] [0x89, 0x01] = .error (.noSuchForm .sta .immediate) := by rfl

theorem test_table_word_of_opcode_alone : decodeTableWord 8 0xAD = some (.ldaAbs 0x0000) := by decide

theorem test_table_word_with_operand : decodeTableWord 24 0x1234AD = some (.ldaAbs 0x1234) := by decide

theorem test_encode_absolute : encode (.staAbsX 0x02FE) = [0x9D, 0xFE, 0x02] := by decide

/-- `LDA ($20,X)` as the listings of 95_test_vectors.md print it (program P3). -/
theorem test_listing_indirect_x : listing (.ldaIndX 0x20) = ['L', 'D', 'A', ' ', '(', '$', '2', '0', ',', 'X', ')'] := by
  decide

/-- `STA $02FE,X` (program P3). -/
theorem test_listing_absolute_x :
    listing (.staAbsX 0x02FE) = ['S', 'T', 'A', ' ', '$', '0', '2', 'F', 'E', ',', 'X'] := by decide

/-! ## One step on a small state (95_test_vectors.md, part 2) -/

/-- A Ready machine with bytes placed at `pc`, some cells written, and registers as a row gives them. -/
def placed (pc : Word) (bytes : List Byte) (cells : List (Word × Byte)) (a x y p : Byte) : State :=
  State.writeBytes bytes pc (cells.foldl (fun s c => s.write c.1 c.2)
    { State.reset with a := a, x := x, y := y, p := Flags.ofByte p, pc := pc })

/-- Whether the step of the machine with arguments leaves what a row says: the inspected state, the transactions in
order, and the bytes of some cells. -/
def stepsAsWith (params : Params) (s : State) (after : Inspection) (accesses : List Access) (cells : List (Word × Byte)) :
    Bool :=
  match tableStep params s with
  | .next t => decide (t.inspect = some after) && decide (instructionAccesses params s = accesses) &&
      cells.all fun c => t.read c.1 == c.2
  | .fault _ => false
  | .refused _ => false

/-- The same for the machine's own step. -/
def stepsAs (s : State) (after : Inspection) (accesses : List Access) (cells : List (Word × Byte)) : Bool :=
  match step s with
  | .next t => decide (t.inspect = some after) && decide (instructionAccesses Params.default s = accesses) &&
      cells.all fun c => t.read c.1 == c.2
  | .fault _ => false
  | .refused _ => false

theorem test_lda_L1 :
    stepsAs (placed 0x8000 [0xA9, 0x80] [] 0x01 0x00 0x00 0x02)
      ⟨0x80, 0x00, 0x00, 0x8002, 0x80, .ready, none⟩
      [.read 0x8000 0xA9, .read 0x8001 0x80]
      [] := by decide

theorem test_lda_W1 :
    stepsAs (placed 0xFFFF [0xA9, 0x42] [] 0x00 0x00 0x00 0x00)
      ⟨0x42, 0x00, 0x00, 0x0001, 0x00, .ready, none⟩
      [.read 0xFFFF 0xA9, .read 0x0000 0x42]
      [] := by decide

theorem test_lda_E2 :
    stepsAs (placed 0x8000 [0xA5, 0xFF] [(0x00FF, 0x80)] 0x00 0x00 0x00 0x00)
      ⟨0x80, 0x00, 0x00, 0x8002, 0x80, .ready, none⟩
      [.read 0x8000 0xA5, .read 0x8001 0xFF, .read 0x00FF 0x80]
      [] := by decide

theorem test_lda_L3 :
    stepsAs (placed 0x8000 [0xA5, 0x10] [] 0xAA 0x33 0x00 0x00)
      ⟨0x00, 0x33, 0x00, 0x8002, 0x02, .ready, none⟩
      [.read 0x8000 0xA5, .read 0x8001 0x10, .read 0x0010 0x00]
      [] := by decide

theorem test_lda_E3 :
    stepsAs (placed 0x8000 [0xB5, 0xFE] [(0x0002, 0x11), (0x0102, 0x99)] 0x00 0x04 0x00 0x00)
      ⟨0x11, 0x04, 0x00, 0x8002, 0x00, .ready, none⟩
      [.read 0x8000 0xB5, .read 0x8001 0xFE, .read 0x0002 0x11]
      [] := by decide

theorem test_lda_L4 :
    stepsAs (placed 0x8000 [0xB5, 0x20] [(0x0021, 0xC3)] 0x00 0x01 0x00 0x00)
      ⟨0xC3, 0x01, 0x00, 0x8002, 0x80, .ready, none⟩
      [.read 0x8000 0xB5, .read 0x8001 0x20, .read 0x0021 0xC3]
      [] := by decide

theorem test_lda_W2 :
    stepsAs (placed 0xFFFE [0xAD, 0x34, 0x12] [(0x1234, 0x99)] 0x00 0x00 0x00 0x00)
      ⟨0x99, 0x00, 0x00, 0x0001, 0x80, .ready, none⟩
      [.read 0xFFFE 0xAD, .read 0xFFFF 0x34, .read 0x0000 0x12, .read 0x1234 0x99]
      [] := by decide

theorem test_lda_L5 :
    stepsAs (placed 0x8000 [0xAD, 0x00, 0x80] [] 0x00 0x00 0x00 0x00)
      ⟨0xAD, 0x00, 0x00, 0x8003, 0x80, .ready, none⟩
      [.read 0x8000 0xAD, .read 0x8001 0x00, .read 0x8002 0x80, .read 0x8000 0xAD]
      [] := by decide

theorem test_lda_E5 :
    stepsAs (placed 0x8000 [0xBD, 0xFF, 0xFF] [(0x0001, 0x42)] 0x00 0x02 0x00 0x00)
      ⟨0x42, 0x02, 0x00, 0x8003, 0x00, .ready, none⟩
      [.read 0x8000 0xBD, .read 0x8001 0xFF, .read 0x8002 0xFF, .read 0x0001 0x42]
      [] := by decide

theorem test_lda_E6 :
    stepsAs (placed 0x8000 [0xBD, 0xF0, 0x12] [(0x1310, 0x33)] 0x00 0x20 0x00 0x00)
      ⟨0x33, 0x20, 0x00, 0x8003, 0x00, .ready, none⟩
      [.read 0x8000 0xBD, .read 0x8001 0xF0, .read 0x8002 0x12, .read 0x1310 0x33]
      [] := by decide

theorem test_lda_E8 :
    stepsAs (placed 0x8000 [0xB9, 0x34, 0x12] [(0x1244, 0x22)] 0x00 0x00 0x10 0x00)
      ⟨0x22, 0x00, 0x10, 0x8003, 0x00, .ready, none⟩
      [.read 0x8000 0xB9, .read 0x8001 0x34, .read 0x8002 0x12, .read 0x1244 0x22]
      [] := by decide

theorem test_lda_L7 :
    stepsAs (placed 0x8000 [0xB9, 0x00, 0x02] [(0x0200, 0x02)] 0x00 0x00 0x00 0x00)
      ⟨0x02, 0x00, 0x00, 0x8003, 0x00, .ready, none⟩
      [.read 0x8000 0xB9, .read 0x8001 0x00, .read 0x8002 0x02, .read 0x0200 0x02]
      [] := by decide

theorem test_lda_E9 :
    stepsAs (placed 0x8000 [0xA1, 0xFD] [(0x0001, 0x34), (0x0002, 0x12), (0x1234, 0x5A)] 0x00 0x04 0x00 0x00)
      ⟨0x5A, 0x04, 0x00, 0x8002, 0x00, .ready, none⟩
      [.read 0x8000 0xA1, .read 0x8001 0xFD, .read 0x0001 0x34, .read 0x0002 0x12, .read 0x1234 0x5A]
      [] := by decide

theorem test_lda_E10 :
    stepsAs (placed 0x8000 [0xA1, 0xFC] [(0x00FF, 0x34), (0x0000, 0x12), (0x0100, 0xEE), (0x1234, 0x5B)] 0x00 0x03 0x00 0x00)
      ⟨0x5B, 0x03, 0x00, 0x8002, 0x00, .ready, none⟩
      [.read 0x8000 0xA1, .read 0x8001 0xFC, .read 0x00FF 0x34, .read 0x0000 0x12, .read 0x1234 0x5B]
      [] := by decide

theorem test_lda_E11 :
    stepsAs (placed 0x8000 [0xB1, 0xFF] [(0x00FF, 0xF8), (0x0000, 0x02), (0x0100, 0xEE), (0x02F8, 0x77)] 0x00 0x00 0x00 0x00)
      ⟨0x77, 0x00, 0x00, 0x8002, 0x00, .ready, none⟩
      [.read 0x8000 0xB1, .read 0x8001 0xFF, .read 0x00FF 0xF8, .read 0x0000 0x02, .read 0x02F8 0x77]
      [] := by decide

theorem test_lda_E12 :
    stepsAs (placed 0x8000 [0xB1, 0xFF] [(0x00FF, 0xF8), (0x0000, 0x02), (0x0308, 0x78)] 0x00 0x00 0x10 0x00)
      ⟨0x78, 0x00, 0x10, 0x8002, 0x00, .ready, none⟩
      [.read 0x8000 0xB1, .read 0x8001 0xFF, .read 0x00FF 0xF8, .read 0x0000 0x02, .read 0x0308 0x78]
      [] := by decide

theorem test_sta_S1 :
    stepsAs (placed 0x8000 [0x85, 0x10] [] 0x3C 0x00 0x00 0x80)
      ⟨0x3C, 0x00, 0x00, 0x8002, 0x80, .ready, none⟩
      [.read 0x8000 0x85, .read 0x8001 0x10, .write 0x0010 0x3C]
      [(0x0010, 0x3C)] := by decide

theorem test_sta_S2 :
    stepsAs (placed 0x8000 [0x95, 0xFF] [(0x0000, 0x55)] 0x00 0x01 0x00 0x00)
      ⟨0x00, 0x01, 0x00, 0x8002, 0x00, .ready, none⟩
      [.read 0x8000 0x95, .read 0x8001 0xFF, .write 0x0000 0x00]
      [(0x0000, 0x00), (0x0100, 0x00)] := by decide

theorem test_sta_S9 :
    stepsAs (placed 0x8000 [0x8D, 0xFC, 0xFF] [(0xFFFD, 0x80)] 0x34 0x00 0x00 0x00)
      ⟨0x34, 0x00, 0x00, 0x8003, 0x00, .ready, none⟩
      [.read 0x8000 0x8D, .read 0x8001 0xFC, .read 0x8002 0xFF, .write 0xFFFC 0x34]
      [(0xFFFC, 0x34), (0xFFFD, 0x80)] := by decide

theorem test_sta_W4 :
    stepsAs (placed 0xFFFD [0x8D, 0x00, 0x00] [] 0x5A 0x00 0x00 0x00)
      ⟨0x5A, 0x00, 0x00, 0x0000, 0x00, .ready, none⟩
      [.read 0xFFFD 0x8D, .read 0xFFFE 0x00, .read 0xFFFF 0x00, .write 0x0000 0x5A]
      [(0x0000, 0x5A)] := by decide

theorem test_sta_S4 :
    stepsAs (placed 0x8000 [0x9D, 0xFE, 0x02] [] 0x9C 0x02 0x00 0x00)
      ⟨0x9C, 0x02, 0x00, 0x8003, 0x00, .ready, none⟩
      [.read 0x8000 0x9D, .read 0x8001 0xFE, .read 0x8002 0x02, .write 0x0300 0x9C]
      [(0x0300, 0x9C)] := by decide

theorem test_sta_S5 :
    stepsAs (placed 0x8000 [0x99, 0xFF, 0xFF] [] 0x12 0x00 0x00 0x00)
      ⟨0x12, 0x00, 0x00, 0x8003, 0x00, .ready, none⟩
      [.read 0x8000 0x99, .read 0x8001 0xFF, .read 0x8002 0xFF, .write 0xFFFF 0x12]
      [(0xFFFF, 0x12)] := by decide

theorem test_sta_S6 :
    stepsAs (placed 0x8000 [0x81, 0x20] [(0x0025, 0x04)] 0x77 0x04 0x00 0x00)
      ⟨0x77, 0x04, 0x00, 0x8002, 0x00, .ready, none⟩
      [.read 0x8000 0x81, .read 0x8001 0x20, .read 0x0024 0x00, .read 0x0025 0x04, .write 0x0400 0x77]
      [(0x0400, 0x77)] := by decide

theorem test_sta_S7 :
    stepsAs (placed 0x8000 [0x91, 0xFF] [(0x00FF, 0xF8), (0x0000, 0x02)] 0x77 0x00 0x00 0x00)
      ⟨0x77, 0x00, 0x00, 0x8002, 0x00, .ready, none⟩
      [.read 0x8000 0x91, .read 0x8001 0xFF, .read 0x00FF 0xF8, .read 0x0000 0x02, .write 0x02F8 0x77]
      [(0x02F8, 0x77)] := by decide

theorem test_and_N1 :
    stepsAs (placed 0x8000 [0x29, 0x0F] [] 0xF0 0x00 0x00 0x80)
      ⟨0x00, 0x00, 0x00, 0x8002, 0x02, .ready, none⟩
      [.read 0x8000 0x29, .read 0x8001 0x0F]
      [] := by decide

theorem test_and_N2 :
    stepsAs (placed 0x8000 [0x29, 0xFF] [] 0x80 0x00 0x00 0x00)
      ⟨0x80, 0x00, 0x00, 0x8002, 0x80, .ready, none⟩
      [.read 0x8000 0x29, .read 0x8001 0xFF]
      [] := by decide

theorem test_and_N5 :
    stepsAs (placed 0x8000 [0x25, 0x10] [(0x0010, 0x3C)] 0xF0 0x00 0x00 0x00)
      ⟨0x30, 0x00, 0x00, 0x8002, 0x00, .ready, none⟩
      [.read 0x8000 0x25, .read 0x8001 0x10, .read 0x0010 0x3C]
      [] := by decide

theorem test_and_N6 :
    stepsAs (placed 0x8000 [0x35, 0xFE] [(0x0000, 0x0F)] 0x9C 0x02 0x00 0x00)
      ⟨0x0C, 0x02, 0x00, 0x8002, 0x00, .ready, none⟩
      [.read 0x8000 0x35, .read 0x8001 0xFE, .read 0x0000 0x0F]
      [] := by decide

theorem test_and_N7 :
    stepsAs (placed 0x8000 [0x2D, 0x34, 0x12] [(0x1234, 0x55)] 0xAA 0x00 0x00 0x00)
      ⟨0x00, 0x00, 0x00, 0x8003, 0x02, .ready, none⟩
      [.read 0x8000 0x2D, .read 0x8001 0x34, .read 0x8002 0x12, .read 0x1234 0x55]
      [] := by decide

theorem test_and_N8 :
    stepsAs (placed 0x8000 [0x3D, 0x00, 0x12] [(0x1234, 0x81)] 0xC3 0x34 0x00 0x00)
      ⟨0x81, 0x34, 0x00, 0x8003, 0x80, .ready, none⟩
      [.read 0x8000 0x3D, .read 0x8001 0x00, .read 0x8002 0x12, .read 0x1234 0x81]
      [] := by decide

theorem test_and_N9 :
    stepsAs (placed 0x8000 [0x39, 0x34, 0x12] [(0x1234, 0xFF)] 0x0F 0x00 0x00 0x00)
      ⟨0x0F, 0x00, 0x00, 0x8003, 0x00, .ready, none⟩
      [.read 0x8000 0x39, .read 0x8001 0x34, .read 0x8002 0x12, .read 0x1234 0xFF]
      [] := by decide

theorem test_and_N10 :
    stepsAs (placed 0x8000 [0x21, 0x20] [(0x0022, 0x34), (0x0023, 0x12), (0x1234, 0x9C)] 0xFF 0x02 0x00 0x00)
      ⟨0x9C, 0x02, 0x00, 0x8002, 0x80, .ready, none⟩
      [.read 0x8000 0x21, .read 0x8001 0x20, .read 0x0022 0x34, .read 0x0023 0x12, .read 0x1234 0x9C]
      [] := by decide

theorem test_and_N11 :
    stepsAs (placed 0x8000 [0x31, 0x40] [(0x0041, 0x03), (0x0300, 0x10)] 0x18 0x00 0x00 0x00)
      ⟨0x10, 0x00, 0x00, 0x8002, 0x00, .ready, none⟩
      [.read 0x8000 0x31, .read 0x8001 0x40, .read 0x0040 0x00, .read 0x0041 0x03, .read 0x0300 0x10]
      [] := by decide

theorem test_tax_X1 :
    stepsAs (placed 0x8000 [0xAA] [] 0x00 0x55 0x00 0x00)
      ⟨0x00, 0x00, 0x00, 0x8001, 0x02, .ready, none⟩
      [.read 0x8000 0xAA]
      [] := by decide

theorem test_tax_X2 :
    stepsAs (placed 0x8000 [0xAA] [] 0x80 0x00 0x00 0x02)
      ⟨0x80, 0x80, 0x00, 0x8001, 0x80, .ready, none⟩
      [.read 0x8000 0xAA]
      [] := by decide

theorem test_inx_X5 :
    stepsAs (placed 0x8000 [0xE8] [] 0x00 0x7F 0x00 0x00)
      ⟨0x00, 0x80, 0x00, 0x8001, 0x80, .ready, none⟩
      [.read 0x8000 0xE8]
      [] := by decide

theorem test_inx_X6 :
    stepsAs (placed 0x8000 [0xE8] [] 0x00 0xFF 0x00 0x80)
      ⟨0x00, 0x00, 0x00, 0x8001, 0x02, .ready, none⟩
      [.read 0x8000 0xE8]
      [] := by decide

theorem test_brk_B1 :
    stepsAs (placed 0x8000 [0x00] [] 0x12 0x34 0x00 0x80)
      ⟨0x12, 0x34, 0x00, 0x8001, 0x80, .halted, none⟩
      [.read 0x8000 0x00]
      [] := by decide

theorem test_brk_B2 :
    stepsAs (placed 0x9000 [0x00, 0xFF] [] 0x00 0x00 0x00 0x00)
      ⟨0x00, 0x00, 0x00, 0x9001, 0x00, .halted, none⟩
      [.read 0x9000 0x00]
      [] := by decide

theorem test_illegal_F1 :
    stepsAs (placed 0x8000 [0x02] [] 0x01 0x00 0x00 0x00)
      ⟨0x01, 0x00, 0x00, 0x8001, 0x00, .faulted, (some (.unrecognizedOpcode 0x02 0x8000))⟩
      [.read 0x8000 0x02]
      [] := by decide

theorem test_illegal_F3 :
    stepsAs (placed 0xFFFF [0xFF, 0x00] [] 0x00 0x00 0x00 0x00)
      ⟨0x00, 0x00, 0x00, 0x0000, 0x00, .faulted, (some (.unrecognizedOpcode 0xFF 0xFFFF))⟩
      [.read 0xFFFF 0xFF]
      [] := by decide

theorem test_lda_E13_under_literal_pre :
    stepsAsWith ({ Params.default with reading := .literalPre }) (placed 0x8000 [0xB1, 0xFF] [(0x00FF, 0xF8), (0x0000, 0x02), (0x0010, 0x04), (0x0400, 0x79)] 0x00 0x00 0x10 0x00)
      ⟨0x79, 0x00, 0x10, 0x8002, 0x00, .ready, none⟩
      [.read 0x8000 0xB1, .read 0x8001 0xFF, .read 0x000F 0x00, .read 0x0010 0x04, .read 0x0400 0x79]
      [] := by decide

theorem test_lda_E14_under_low_byte_wrap :
    stepsAsWith ({ Params.default with reading := .lowByteWrap }) (placed 0x8000 [0xB1, 0xFF] [(0x00FF, 0xF8), (0x0000, 0x02), (0x0208, 0x7A)] 0x00 0x00 0x10 0x00)
      ⟨0x7A, 0x00, 0x10, 0x8002, 0x00, .ready, none⟩
      [.read 0x8000 0xB1, .read 0x8001 0xFF, .read 0x00FF 0xF8, .read 0x0000 0x02, .read 0x0208 0x7A]
      [] := by decide

theorem test_illegal_F4_under_the_source_table :
    stepsAsWith Params.source (placed 0x8000 [0x85, 0x10] [] 0x3C 0x00 0x00 0x00)
      ⟨0x3C, 0x00, 0x00, 0x8001, 0x00, .faulted, (some (.unrecognizedOpcode 0x85 0x8000))⟩
      [.read 0x8000 0x85]
      [(0x0010, 0x00)] := by decide

/-! ## Memory, flags, the carry port and the reserved write of `pc` -/

/-- T7 at the top of memory: the high byte wraps to address 0x0000. -/
theorem test_word_wraps :
    ((State.reset.writeWord 0xFFFF 0xBEEF).read 0xFFFF, (State.reset.writeWord 0xFFFF 0xBEEF).read 0x0000) = (0xEF, 0xBE) := by
  decide

/-- Writing back the zero of an unlisted cell removes the entry, so that equal memories are equal data. -/
theorem test_write_zero_removes : ((State.reset.write 0x0200 0x05).write 0x0200 0x00).mem = [] := by decide

/-- Table 2.1 of 95_test_vectors.md, second pair of columns: from `P = 0xFF` only bits 1 and 7 change. -/
theorem test_setZN_from_all_ones :
    [0x00, 0x01, 0x7F, 0x80, 0xFF].map (fun r => ((Flags.ofByte 0xFF).setZN r).toByte) =
      [0x7F, 0x7D, 0x7D, 0xFD, 0xFD] := by decide

/-- 10_state.md R20: `setCarry` sets bit 0 and `clearCarry` clears it. -/
theorem test_carry_port : (Flags.clear.setCarry.toByte, (Flags.ofByte 0xFF).clearCarry.toByte) = (0x01, 0xFE) := by decide

/-- 40_fetch_decode_pc.md R76: a handler that writes `pc` gets no length advance. -/
theorem test_written_pc_is_kept : (pcMux 3 (handlerWritePc 0x9000 State.reset)).pc = 0x9000 := by decide

/-- Row C4: the top of an image of 0x8000 bytes is overwritten by the vector (here a shorter run of bytes at the top). -/
theorem test_load_writes_the_vector :
    let t := (loadCommand [0xE8] (State.powerOn.write 0xFFFC 0x55)).1
    (t.read 0x8000, t.read 0xFFFC, t.read 0xFFFD, t.ls) = (0xE8, 0x00, 0x80, .loaded) := by decide

/-- Row C2: `reset` and `run` with nothing loaded halt with `pc = 0x0001`. -/
theorem test_reset_then_run_halts :
    ((runCommand 1 State.reset).1.pc, (runCommand 1 State.reset).2) = (0x0001, .halted) := by decide

/-- R207: a machine left Running by a run shows nothing, and one that is stopped shows its registers. -/
theorem test_inspection_waits_for_the_end :
    (perform 1 .inspect (runCommand 1 (placed 0x8000 [0xE8] [] 0 0 0 0)).1).2 = .notAccepted ∧
    (perform 1 .inspect (runCommand 2 (placed 0x8000 [0xE8] [] 0 0 0 0)).1).2 =
      .inspected ⟨0x00, 0x01, 0x00, 0x8002, 0x00, .halted, none⟩ := by decide

/-- A row without an address raises InvalidAddressingRequest (60_exceptions.md R172). -/
theorem test_addressless_row_faults :
    (tableInstruction { Params.default with itab := [⟨0xAD, .lda, .noneAddressing, 1, 2, false⟩] }
      (placed 0x8000 [0xAD] [] 0 0 0 0)).inspect =
        some ⟨0x00, 0x00, 0x00, 0x8001, 0x00, .faulted, some .invalidAddressingRequest⟩ := by
  decide

/-! ## Witnesses: a state and operands that meet the hypotheses of each statement, under the statement's name -/

/-- A state whose memory lists a cell at each end of the address space. -/
def filled : State := (State.reset.write 0x0000 0x11).write 0xFFFF 0x22

theorem witness_DecodeInvertsEncodeUnderEveryTable :
    itabSource.wf = true ∧ (Instr.ldaZp 0xFF).wellFormed itabSource = true := by decide

theorem witness_DecodedBytesAreTheEncoding : decode [0xBD, 0xFF, 0xFF] = .ok (.ldaAbsX 0xFFFF, []) := by rfl

theorem witness_UnlistedOpcodesAreRejected : ∀ i : Instr, i.opcode ≠ 0xFF := by
  intro i; cases i <;> simp [Instr.opcode]

theorem unlisted_at_top (i : Instr) :
    i.opcode ≠ (placed 0xFFFF [0xFF] [] 0 0 0 0).read (placed 0xFFFF [0xFF] [] 0 0 0 0).pc := by
  have e : (placed 0xFFFF [0xFF] [] 0 0 0 0).read (placed 0xFFFF [0xFF] [] 0 0 0 0).pc = 0xFF := by decide
  rw [e]
  exact witness_UnlistedOpcodesAreRejected i

theorem witness_WordWriteThenReadReturnsTheWord :
    Memory.wf filled.mem ∧ (0x0001 : Word) ≠ 0xFFFF ∧ (0x0001 : Word) ≠ 0xFFFF + 1 := by decide

theorem witness_LoadImageCopiesTheBytes_fits :
    Memory.wf filled.mem ∧ (0xFFFE : Word).toNat + [0x01, (0x02 : Byte)].length ≤ 0x10000 := by decide

theorem witness_LoadImageCopiesTheBytes_too_long :
    Memory.wf filled.mem ∧ 0x10000 < (0xFFFF : Word).toNat + [0x01, (0x02 : Byte)].length := by decide

theorem witness_EqualReadsMakeEqualMemories :
    let t := (filled.write 0x8000 0x33).write 0x8000 0x00
    Memory.wf filled.mem ∧ Memory.wf t.mem ∧ ∀ b, filled.read b = t.read b :=
  ⟨by decide, by decide, fun _ => rfl⟩

theorem witness_ReadingsAgreeWhenYIsZero : (placed 0x8000 [0xB1, 0xFF] [] 0x01 0x02 0x00 0x00).y = 0x00 := by decide

theorem witness_StaFormsStoreAtTheirAddress : Memory.wf filled.mem ∧ filled.mem ≠ [] := by decide

theorem witness_MeaningAddressesAreTheResolvers_byte_operands :
    (∃ rest, decode (placed 0xFFFF [0xA9, 0xFF] [] 0 0 0 0).fetchBytes = .ok (.ldaImm 0xFF, rest)) ∧
    (∃ rest, decode (placed 0xFFFF [0x85, 0xFF] [] 0 0 0 0).fetchBytes = .ok (.staZp 0xFF, rest)) ∧
    (∃ rest, decode (placed 0xFFFF [0x95, 0xFF] [] 0 0xFF 0 0).fetchBytes = .ok (.staZpX 0xFF, rest)) ∧
    (∃ rest, decode (placed 0xFFFF [0x81, 0xFF] [] 0 0xFF 0 0).fetchBytes = .ok (.staIndX 0xFF, rest)) ∧
    (∃ rest, decode (placed 0xFFFF [0x91, 0xFF] [] 0 0 0xFF 0).fetchBytes = .ok (.staIndY 0xFF, rest)) :=
  ⟨⟨_, rfl⟩, ⟨_, rfl⟩, ⟨_, rfl⟩, ⟨_, rfl⟩, ⟨_, rfl⟩⟩

theorem witness_MeaningAddressesAreTheResolvers_other_operands :
    (∃ rest, decode (placed 0xFFFE [0x8D, 0xFF, 0xFF] [] 0 0 0 0).fetchBytes = .ok (.staAbs 0xFFFF, rest)) ∧
    (∃ rest, decode (placed 0xFFFE [0x9D, 0xFF, 0xFF] [] 0 0xFF 0 0).fetchBytes = .ok (.staAbsX 0xFFFF, rest)) ∧
    (∃ rest, decode (placed 0xFFFE [0x99, 0xFF, 0xFF] [] 0 0 0xFF 0).fetchBytes = .ok (.staAbsY 0xFFFF, rest)) ∧
    (∃ rest, decode (placed 0xFFFF [0xAA] [] 0 0 0 0).fetchBytes = .ok (.tax, rest)) :=
  ⟨⟨_, rfl⟩, ⟨_, rfl⟩, ⟨_, rfl⟩, ⟨_, rfl⟩⟩

theorem witness_HandlersFollowTheEffectiveAddress :
    filled.effectiveAddress .canonical .zeroPage = some 0x0011 ∧ Memory.wf filled.mem ∧ (0x0012 : Word) ≠ 0x0011 := by decide

theorem witness_BrkOnlyHalts : State.reset.ls ≠ .faulted ∧ State.reset.read State.reset.pc = 0x00 := by decide

theorem witness_ZeroAndNegativeAreDerived :
    (∃ t, exec (.ldaImm 0x80) State.reset = .next t) ∧ (∃ t, exec (.andImm 0x00) State.reset = .next t) ∧
    (∃ t, exec .tax State.reset = .next t) ∧ (∃ t, exec .inx State.reset = .next t) ∧
    (∃ t, exec (.staZp 0x10) State.reset = .next t) ∧ (∃ t, exec .brk State.reset = .next t) ∧
    (∃ t, resetCommand filled = (t, .done)) :=
  ⟨⟨_, rfl⟩, ⟨_, rfl⟩, ⟨_, rfl⟩, ⟨_, rfl⟩, ⟨_, rfl⟩, ⟨_, rfl⟩, ⟨_, rfl⟩⟩

/-- ZeroAndNegativeAreDerived at an unlisted byte. -/
theorem witness_ZeroAndNegativeAreDerived_unlisted :
    (∀ i : Instr, i.opcode ≠ (placed 0xFFFF [0xFF] [] 0 0 0 0).read (placed 0xFFFF [0xFF] [] 0 0 0 0).pc) ∧
    ∃ t, step (placed 0xFFFF [0xFF] [] 0 0 0 0) = .next t := ⟨unlisted_at_top, ⟨_, rfl⟩⟩

theorem witness_TaxMovesAToX_and_InxIncrementsXModulo256 :
    (placed 0xFFFF [0xAA] [] 0 0 0 0).read 0xFFFF = 0xAA ∧ (placed 0xFFFF [0xE8] [] 0 0 0 0).read 0xFFFF = 0xE8 := by decide

theorem witness_OnlyTheCarryPortAndResetWriteCarry :
    ∃ t, step (placed 0x8000 [0xE8] [] 0 0xFF 0 0x01) = .next t := ⟨_, rfl⟩

/-- A Running machine at an INX. -/
def runningInx : State := (placed 0x8000 [0xE8] [] 0 0xFF 0 0).setLs .running

theorem witness_StepRunsTheDecodedInstruction_running :
    (∃ rest, decode runningInx.fetchBytes = .ok (.inx, rest)) ∧ runningInx.ls = .running := ⟨⟨_, rfl⟩, rfl⟩

theorem witness_StepRunsTheDecodedInstruction_stopped :
    let s := placed 0x8000 [0xE8] [] 0 0xFF 0 0
    (∃ rest, decode s.fetchBytes = .ok (.inx, rest)) ∧ s.ls ≠ .running ∧ s.ls ≠ .faulted ∧
    ∃ o, exec .inx ((s.setLs .running).setPc (s.pc + 1)) = .next o :=
  ⟨⟨_, rfl⟩, by decide, by decide, ⟨_, rfl⟩⟩

theorem witness_UnlistedByteTakesUnrecognizedOpcode_tables :
    let s := placed 0xFFFF [0x85] [] 0 0 0 0
    s.ls ≠ .faulted ∧ Params.source.itab.lookup (s.read s.pc) = none := by decide

theorem witness_UnlistedByteTakesUnrecognizedOpcode_step :
    let s := placed 0xFFFF [0xFF] [] 0 0 0 0
    s.ls ≠ .faulted ∧ ∀ i : Instr, i.opcode ≠ s.read s.pc :=
  ⟨by decide, unlisted_at_top⟩

theorem witness_EveryStepCompletesUnlessFaulted :
    (State.reset.raise .invalidAddressingRequest).ls = .faulted ∧ State.powerOn.ls ≠ .faulted := by decide

/-- The three outcomes of HaltByteIsTheSoleWayToHalted: after the halt byte, after an unlisted byte, after an instruction. -/
theorem witness_HaltByteIsTheSoleWayToHalted :
    (∃ t, step State.reset = .next t ∧ t.ls = .halted) ∧
    (∃ t, step (placed 0xFFFF [0xFF] [] 0 0 0 0) = .next t ∧ t.ls = .faulted) ∧
    (∃ t, step runningInx = .next t ∧ t.ls = .running) :=
  ⟨⟨_, rfl, rfl⟩, ⟨_, rfl, rfl⟩, ⟨_, rfl, rfl⟩⟩

/-- PcMovesByTheLength at the top of memory: an instruction. -/
theorem witness_PcMovesByTheLength_instruction :
    let s := placed 0xFFFF [0xA9, 0x42] [] 0 0 0 0
    (∃ t, step s = .next t) ∧ ∃ rest, decode s.fetchBytes = .ok (.ldaImm 0x42, rest) := ⟨⟨_, rfl⟩, ⟨_, rfl⟩⟩

/-- PcMovesByTheLength at the top of memory: an unlisted byte. -/
theorem witness_PcMovesByTheLength_unlisted :
    let s := placed 0xFFFF [0xFF] [] 0 0 0 0
    (∃ t, step s = .next t) ∧ ∀ i : Instr, i.opcode ≠ s.read s.pc := ⟨⟨_, rfl⟩, unlisted_at_top⟩

/-- StepWritesOnlyWhatItsInstructionMay: a step that changes `A`, one that changes `X`, one that changes memory. -/
theorem witness_StepWritesOnlyWhatItsInstructionMay :
    (∃ t, step (placed 0x8000 [0xA9, 0x42] [] 0 0 0 0) = .next t ∧ t.a ≠ 0x00) ∧
    (∃ t, step runningInx = .next t ∧ t.x ≠ 0xFF) ∧
    (∃ t, step (placed 0x8000 [0x85, 0x10] [] 0x3C 0 0 0) = .next t ∧
      t.read 0x0010 ≠ (placed 0x8000 [0x85, 0x10] [] 0x3C 0 0 0).read 0x0010) :=
  ⟨⟨_, rfl, by decide⟩, ⟨_, rfl, by decide⟩, ⟨_, rfl, by decide⟩⟩

theorem witness_NoHandlerWritesPc :
    (∃ t we, dispatch .canonical .inx .noneAddressing State.reset = .returned t we) ∧
    (∃ t, dispatch .canonical .brk .noneAddressing State.reset = .ended t) := ⟨⟨_, _, rfl⟩, ⟨_, rfl⟩⟩

theorem witness_WellFormedTablesNeverAskForNoAddress :
    Params.source.itab.wf = true ∧ (∃ t, tableStep Params.source runningInx = .next t) ∧
    runningInx.fr ≠ some .invalidAddressingRequest := ⟨by decide, ⟨_, rfl⟩, by decide⟩

theorem witness_AddresslessRowTakesInvalidAddressingRequest :
    let params := { Params.default with itab := [⟨0x8D, .sta, .noneAddressing, 1, 2, false⟩] }
    let s := placed 0xFFFF [0x8D] [] 0 0 0 0
    s.ls ≠ .faulted ∧ params.itab.lookup (s.read s.pc) = some ⟨0x8D, .sta, .noneAddressing, 1, 2, false⟩ := by decide

/-- StoredByteIsTheNextOpcode across the top of memory (row W4), and through a pointer and an index. -/
theorem witness_StoredByteIsTheNextOpcode_absolute :
    let s := placed 0xFFFD [0x8D, 0x00, 0x00] [] 0x5A 0 0 0
    Memory.wf s.mem ∧ s.ls ≠ .faulted ∧ (∃ rest, decode s.fetchBytes = .ok (.staAbs 0x0000, rest)) ∧
    s.advance.effectiveAddress indyReading .absolute = some (s.pc + BitVec.ofNat 16 (Instr.staAbs 0x0000).length) :=
  ⟨by decide, by decide, ⟨_, rfl⟩, by decide⟩

theorem witness_StoredByteIsTheNextOpcode_indirect :
    let s := placed 0x8000 [0x91, 0xFF] [(0x00FF, 0xF2), (0x0000, 0x7F)] 0xE8 0 0x10 0
    Memory.wf s.mem ∧ s.ls ≠ .faulted ∧ (∃ rest, decode s.fetchBytes = .ok (.staIndY 0xFF, rest)) ∧
    s.advance.effectiveAddress indyReading .indirectY = some (s.pc + BitVec.ofNat 16 (Instr.staIndY 0xFF).length) :=
  ⟨by decide, by decide, ⟨_, rfl⟩, by decide⟩

theorem witness_FetchWordIsWhatTheNextStepRuns :
    Memory.wf filled.mem ∧ decodeTableWord 8 0xAD = some (.ldaAbs 0x0000) ∧ filled.ls ≠ .faulted := by decide

/-- AccessesByModeInOrder, in each mode: a row of the mode is found and has an effective address, at a pointer or an
index that wraps in page zero. -/
theorem witness_AccessesByModeInOrder :
    let target := fun (op d : Byte) => placed 0xFFFF [op, d] [] 0 0xFF 0xFF 0
    ([0xA9, 0x85, 0xB5, 0x8D, 0x9D, 0x39, 0x81, 0x91].map fun op =>
      ((itabDefault.lookup ((target op 0xFF).read (target op 0xFF).pc)).map Descriptor.mode,
        ((itabDefault.lookup op).bind fun d => (target op 0xFF).advance.effectiveAddress .canonical d.mode).isSome)) =
      [(some .immediate, true), (some .zeroPage, true), (some .zeroPageX, true), (some .absolute, true),
        (some .absoluteX, true), (some .absoluteY, true), (some .indirectX, true), (some .indirectY, true)] := by decide

/-- AccessesByModeInOrder where there is the fetch alone, and in the pairs and readings that only arguments reach. -/
theorem witness_AccessesByModeInOrder_others :
    itabDefault.lookup ((placed 0xFFFF [0xFF] [] 0 0 0 0).read 0xFFFF) = none ∧
    (itabDefault.lookup ((placed 0xFFFF [0xAA] [] 0 0 0 0).read 0xFFFF)).map Descriptor.mnemonic = some .tax ∧
    (ITab.lookup [⟨0xB6, .lda, .zeroPageY, 2, 4, false⟩] ((placed 0xFFFF [0xB6, 0xFF] [] 0 0 0xFF 0).read 0xFFFF)).map
      Descriptor.mode = some .zeroPageY ∧
    (placed 0xFFFF [0xB6, 0xFF] [] 0 0 0xFF 0).advance.effectiveAddress .canonical .zeroPageY = some 0x00FE ∧
    ((placed 0xFFFF [0xB1, 0xFF] [] 0 0 0xFF 0).advance.effectiveAddress .literalPre .indirectY).isSome = true ∧
    ((placed 0xFFFF [0xB1, 0xFF] [] 0 0 0xFF 0).advance.effectiveAddress .lowByteWrap .indirectY).isSome = true := by decide

/-- StepDependsOnlyOnTheCellsItReads: two states that differ in a cell the step does not read. -/
theorem witness_StepDependsOnlyOnTheCellsItReads :
    let s := placed 0x8000 [0xA5, 0x10] [(0x0010, 0x55)] 0 0 0 0
    let t := placed 0x8000 [0xA5, 0x10] [(0x0010, 0x55), (0x0011, 0x66)] 0 0 0 0
    ({ s with mem := t.mem } = t ∧ s ≠ t ∧ Memory.wf s.mem ∧ Memory.wf t.mem ∧ t.read 0xFFFF = s.read 0xFFFF) ∧
    ∀ b v, Access.read b v ∈ instructionAccesses Params.default s → t.read b = v := by
  refine ⟨by decide, fun b v h => ?_⟩
  have e : instructionAccesses Params.default (placed 0x8000 [0xA5, 0x10] [(0x0010, 0x55)] 0 0 0 0) =
      [.read 0x8000 0xA5, .read 0x8001 0x10, .read 0x0010 0x55] := by decide
  rw [e] at h
  simp only [List.mem_cons, Access.read.injEq, List.not_mem_nil, or_false] at h
  rcases h with ⟨rfl, rfl⟩ | ⟨rfl, rfl⟩ | ⟨rfl, rfl⟩ <;> decide

theorem witness_EveryStepKeepsTheInvariant : runningInx.Inv ∧ ∃ t, step runningInx = .next t := ⟨by decide, ⟨_, rfl⟩⟩

theorem witness_EveryCommandKeepsTheInvariant : State.reset.Inv ∧ State.reset.Unwritten := by decide

theorem witness_ResetZeroesRegistersAndLoadsPc : State.powerOn.ls ≠ .running := by decide

/-- LoadPlacesTheImageAndTheVector and LoadAndRunStartsAtTheProgramBase at the longest image. -/
theorem witness_LoadPlacesTheImageAndTheVector :
    Memory.wf filled.mem ∧ filled.ls ≠ .running ∧ (List.replicate 0x8000 (0xE8 : Byte)).length ≤ 0x8000 :=
  ⟨by decide, by decide, by rw [List.length_replicate]⟩

theorem witness_LoadAndRunStartsAtTheProgramBase :
    Memory.wf filled.mem ∧ filled.ls ≠ .running ∧ ([] : List Byte).length ≤ 0x8000 := by decide

/-- OversizedImageChangesNothing at the shortest image that does not fit. -/
theorem witness_OversizedImageChangesNothing :
    filled.ls ≠ .running ∧ 0x8000 < (List.replicate 0x8001 (0xE8 : Byte)).length := by
  rw [List.length_replicate]; decide

theorem witness_LifecycleTransitions :
    runningInx.ls = .running ∧ (State.reset.raise .invalidAddressingRequest).ls = .faulted ∧
    (State.powerOn.ls ≠ .running ∧ (List.replicate 0x8000 (0xE8 : Byte)).length ≤ 0x8000 ∧
      0x8000 < (List.replicate 0x8001 (0xE8 : Byte)).length) ∧
    (State.reset.ls ≠ .running ∧ State.reset.ls ≠ .faulted) :=
  ⟨by decide, by decide, ⟨by decide, by rw [List.length_replicate], by rw [List.length_replicate]; decide⟩, by decide⟩

theorem witness_RunEndsOnlyInHaltedOrFaulted :
    State.reset.ls ≠ .running ∧ State.reset.ls ≠ .faulted ∧ (runCommand 1 State.reset).1.ls ≠ .running := by decide

/-- StepCommandsReachWhatRunReaches with two steps: INX, then the halt. -/
theorem witness_StepCommandsReachWhatRunReaches :
    let s := placed 0x8000 [0xE8] [] 0 0 0 0
    s.ls ≠ .running ∧ s.ls ≠ .faulted ∧ ∀ k, k ≤ 1 → (runCommand k s).1.ls = .running := by
  refine ⟨by decide, by decide, fun k hk => ?_⟩
  obtain rfl | rfl : k = 0 ∨ k = 1 := by omega
  · decide
  · decide

theorem witness_HostReadsAndWritesMemory : Memory.wf filled.mem ∧ filled.ls ≠ .running ∧ (0x0000 : Word) ≠ 0xFFFF := by
  decide

theorem witness_HostInspectsOnlyWhenNotRunning : runningInx.ls = .running ∧ State.powerOn.ls ≠ .running := by decide

end Sys2Proof.Tests
end

section
/-! The flags under `setZN` in the terms of the statements (10_state.md R16, R17): Zero and Negative as numbers, and the
six inert flags together. -/

namespace Sys2Proof.Machine

/-- Zero is `r == 0x00`, as a number. -/
theorem Flags.setZN_zero_eq_toNat (p : Flags) (r : Byte) : (p.setZN r).zero = decide (r.toNat = 0) := by
  rw [Flags.setZN_zero, decide_eq_decide]
  exact BitVec.toNat_inj.symm

/-- Negative is bit 7, which is set from 128 upwards: the top bit of a byte. -/
theorem Flags.setZN_negative_eq_toNat (p : Flags) (r : Byte) : (p.setZN r).negative = decide (128 ≤ r.toNat) := by
  calc (p.setZN r).negative = r.msb := (BitVec.msb_eq_getLsbD_last r).symm
    _ = decide (128 ≤ r.toNat) := BitVec.msb_eq_decide r

@[simp] theorem Flags.setZN_inert (p : Flags) (r : Byte) : (p.setZN r).inert = p.inert := rfl

/-- Settles O19: `setZN` by its two flags as numbers, the six inert flags, and `Flags.setZN_not_both`; `setA` is R17's
write by definition. -/
theorem setZNWritesZeroAndNegativeOnly : Obligations.SetZNWritesZeroAndNegativeOnly :=
  ⟨fun p r => ⟨p.setZN_zero_eq_toNat r, p.setZN_negative_eq_toNat r, p.setZN_inert r, p.setZN_not_both r⟩,
    fun _ _ => rfl⟩

end Sys2Proof.Machine
end

section
/-! The addresses of the resolver as numbers (41_addressing_modes.md R92 to R98): what each address function answers under
`toNat`, with the width at which it wraps. -/

namespace Sys2Proof.Machine

/-- A page-zero address written as the number of its byte. -/
theorem zext16_eq_ofNat (v : Byte) : zext16 v = BitVec.ofNat 16 v.toNat :=
  (BitVec.ofNat_toNat 16 v).symm

/-- A word of memory is little-endian (R95). -/
theorem State.toNat_readWord (s : State) (b : Word) :
    (s.readWord b).toNat = (s.read b).toNat + 256 * (s.read (b + 1)).toNat := by
  rw [State.readWord, toNat_concatBytes]; omega

theorem toNat_zeroPageAddr (d8 : Byte) : (zeroPageAddr d8).toNat = d8.toNat := toNat_zext16 d8

theorem toNat_zeroPageIndexedAddr (d8 index : Byte) :
    (zeroPageIndexedAddr d8 index).toNat = (d8.toNat + index.toNat) % 256 := by
  rw [zeroPageIndexedAddr, toNat_zext16, BitVec.toNat_add]

theorem toNat_absoluteIndexedAddr (a16 : Word) (index : Byte) :
    (absoluteIndexedAddr a16 index).toNat = (a16.toNat + index.toNat) % 65536 := by
  rw [absoluteIndexedAddr, BitVec.toNat_add, toNat_zext16]

/-- A pointer's high byte comes from the next byte of page zero, which after 0xFF is 0x00 (R98, R99). -/
theorem State.toNat_zeroPagePointer (s : State) (p : Byte) :
    (s.zeroPagePointer p).toNat = (s.read (BitVec.ofNat 16 p.toNat)).toNat +
      256 * (s.read (BitVec.ofNat 16 ((p.toNat + 1) % 256))).toNat := by
  have hnext : zext16 (p + 1) = BitVec.ofNat 16 ((p.toNat + 1) % 256) := by
    rw [zext16_eq_ofNat, BitVec.toNat_add]; rfl
  rw [State.zeroPagePointer, toNat_concatBytes, hnext, zext16_eq_ofNat]; omega

theorem State.toNat_indirectXAddr (s : State) (d8 : Byte) :
    (s.indirectXAddr d8).toNat = (s.read (BitVec.ofNat 16 ((d8.toNat + s.x.toNat) % 256))).toNat +
      256 * (s.read (BitVec.ofNat 16 ((d8.toNat + s.x.toNat + 1) % 256))).toNat := by
  rw [State.indirectXAddr, State.toNat_zeroPagePointer, BitVec.toNat_add, Nat.mod_add_mod]

/-- Settles O8: each mode's address function by its number; the two Absolute sums are over the little-endian operand. -/
theorem resolverAddressesByMode : Obligations.ResolverAddressesByMode := by
  intro s r d w ea
  have hword : (s.readWord s.pc).toNat = w := s.toNat_readWord s.pc
  have habsolute (index : Byte) :
      (absoluteIndexedAddr (s.readWord s.pc) index).toNat = (w + index.toNat) % 65536 := by
    rw [toNat_absoluteIndexedAddr, hword]
  exact ⟨rfl,
    congrArg some (toNat_zeroPageAddr (s.read s.pc)),
    congrArg some (toNat_zeroPageIndexedAddr (s.read s.pc) s.x),
    congrArg some (toNat_zeroPageIndexedAddr (s.read s.pc) s.y),
    congrArg some hword,
    congrArg some (habsolute s.x),
    congrArg some (habsolute s.y),
    congrArg some (s.toNat_indirectXAddr (s.read s.pc))⟩

end Sys2Proof.Machine
end

section
/-! TAX and INX (44_transfer_increment.md R155, R156): what the decoder and the memory port do with an instruction at its own
opcode byte, and the write of `X`. -/

namespace Sys2Proof

/-- The lookup of an instruction's opcode byte answers the row of its form (30_encoding.md R55, R56, R58). -/
theorem lookup_opcode (i : Instr) :
    ∃ d, itabDefault.lookup i.opcode = some d ∧ d.mnemonic = i.mnemonic ∧ d.mode = i.mode := by
  have hunique : itabDefault.uniqueKeys = true := by decide
  obtain ⟨d, hmem, hop, hmn, hmd, -⟩ := mem_itabDefault i
  exact ⟨d, hop ▸ lookup_of_mem hunique hmem, hmn, hmd⟩

/-- The decoder gives an encoded instruction back, and leaves the bytes after it. -/
theorem decode_encode_append (i : Instr) (rest : List Byte) : decode (encode i ++ rest) = .ok (i, rest) := by
  obtain ⟨d, hlookup, hmn, hmd⟩ := lookup_opcode i
  simp only [decode, encode, List.cons_append, decodeWith, hlookup, hmn, hmd, takeOperand_bytes, ofForm_of_instr]

namespace Machine

/-- An instruction that needs no address makes one memory access, the fetch of its opcode byte (20_memory.md R40). -/
theorem instructionAccesses_of_not_needsAddress {i : Instr} {s : State} (hi : i.mnemonic.needsAddress = false)
    (hop : s.read s.pc = i.opcode) : instructionAccesses Params.default s = [.read s.pc i.opcode] := by
  obtain ⟨d, hlookup, hmn, -⟩ := lookup_opcode i
  have hrow : Params.default.itab.lookup s.opcodeByte = some d := by rw [State.opcodeByte, hop]; exact hlookup
  simp [instructionAccesses, hrow, State.handlerAccesses, hmn, hi, State.readAccess, hop]

theorem exec_tax (s : State) : exec .tax s = .next ((s.setX s.a).setPc (s.pc + 0)) := rfl

theorem exec_inx (s : State) : exec .inx s = .next ((s.setX (s.x + 1)).setPc (s.pc + 0)) := rfl

/-- A meaning that is `setX` and the length advance of a one-byte instruction loads `X`, with nothing else changed. -/
theorem loadsX_of_exec_eq_setX {i : Instr} {v : Byte} {s : State}
    (h : exec i s = .next ((s.setX v).setPc (s.pc + 0))) : Claims.LoadsX i v s :=
  have hpc : ((s.setX v).setPc (s.pc + 0)).pc = s.pc := BitVec.add_zero s.pc
  ⟨_, h, s.setX_x v, s.p.setZN_zero_eq_toNat v, s.p.setZN_negative_eq_toNat v, s.p.setZN_inert v,
    rfl, rfl, rfl, hpc, rfl, rfl, fun b => s.read_setX b v⟩

/-- Settles O16: the bytes of TAX are `encode .tax`, its meaning is `exec_tax`, and it needs no address. -/
theorem taxMovesAToX : Obligations.TaxMovesAToX :=
  ⟨decode_encode_append .tax, rfl, rfl, fun s =>
    ⟨loadsX_of_exec_eq_setX (exec_tax s), instructionAccesses_of_not_needsAddress (i := .tax) rfl⟩⟩

/-- Settles O17: as for TAX, with `X + 1`, whose number is taken modulo 256 by the width of a byte. -/
theorem inxIncrementsXModulo256 : Obligations.InxIncrementsXModulo256 :=
  ⟨decode_encode_append .inx, rfl, rfl, fun s =>
    ⟨⟨s.x + 1, BitVec.toNat_add s.x 1, loadsX_of_exec_eq_setX (exec_inx s)⟩,
      instructionAccesses_of_not_needsAddress (i := .inx) rfl⟩⟩

end Machine

end Sys2Proof
end

section
/-! The six inert flags, Carry among them, along every operation of the machine (10_state.md R20, R22): each meaning, each
step and each command keeps all six, but for the write of `RESET_P` by `reset` and by the reset inside `loadAndRun`. -/

namespace Sys2Proof.Machine

/-! ## The step -/

/-- A meaning writes `P` through `setZN` alone (10_state.md R17, R22). -/
theorem exec_inert {i : Instr} {s t : State} (h : exec i s = .next t) : t.p.inert = s.p.inert := by
  rcases exec_cases i s with ⟨v, n, -, e⟩ | ⟨v, -, e⟩ | ⟨ea, n, -, e⟩ | ⟨-, e⟩ <;> cases e.symm.trans h
  · exact s.p.setZN_inert v
  · exact s.p.setZN_inert v
  · rfl
  · rfl

theorem runInstruction_inert {s t : State} (h : runInstruction s = .next t) : t.p.inert = s.p.inert := by
  unfold runInstruction at h
  split at h
  · rw [exec_inert h, State.advance_p]
  · cases h; rfl

theorem step_inert {s t : State} (h : step s = .next t) : t.p.inert = s.p.inert := by
  obtain ⟨-, u, hu, rfl⟩ := step_next h
  have hkeep : u.p.inert = s.p.inert := by rw [runInstruction_inert hu, State.setLs_p]
  split
  · exact hkeep
  · rw [State.settle_p, hkeep]

/-! ## The commands -/

@[simp] theorem State.writeBytes_p (bytes : List Byte) (b : Word) (s : State) : (State.writeBytes bytes b s).p = s.p := by
  rw [State.writeBytes_eq]

theorem loadCommand_p (bytes : List Byte) (s : State) : (loadCommand bytes s).1.p = s.p := by
  rcases loadCommand_cases bytes s with ⟨-, e⟩ | ⟨-, -, e⟩ | ⟨-, -, e⟩ <;> rw [e]
  exact State.writeBytes_p bytes 0x8000 s

theorem runLoop_inert (n : Nat) (s : State) : (runLoop n s).p.inert = s.p.inert :=
  runLoop_keeps (P := fun t => t.p.inert = s.p.inert) (fun _ _ _ hs ht => (runInstruction_inert ht).trans hs) n rfl

theorem runCommand_inert (fuel : Nat) (s : State) : (runCommand fuel s).1.p.inert = s.p.inert := by
  unfold runCommand
  split
  · rfl
  · split
    · rfl
    · exact runLoop_inert fuel (s.setLs .running)

theorem stepCommand_inert (s : State) : (stepCommand s).1.p.inert = s.p.inert := by
  unfold stepCommand
  split
  · rfl
  · split
    · next h => exact step_inert h
    · rfl
    · rfl

theorem memoryReadCommand_fst (b : Word) (s : State) : (memoryReadCommand b s).1 = s := by
  unfold memoryReadCommand; split <;> rfl

theorem memoryWriteCommand_p (b : Word) (v : Byte) (s : State) : (memoryWriteCommand b v s).1.p = s.p := by
  unfold memoryWriteCommand; split <;> rfl

theorem inspectCommand_fst (s : State) : (inspectCommand s).1 = s := by
  unfold inspectCommand; split <;> rfl

/-- `reset` leaves the flags where it is not accepted, and elsewhere gives them `RESET_P` (70_reset_and_hazards.md R202). -/
theorem resetCommand_p_cases (s : State) :
    (resetCommand s).1.p = s.p ∨ (resetCommand s).1.p = Flags.ofByte Config.resetP := by
  unfold resetCommand
  split
  · exact .inl rfl
  · exact .inr rfl

/-- `loadAndRun` changes the inert flags by the reset inside it alone (70_reset_and_hazards.md R206). -/
theorem loadAndRunCommand_inert_cases (fuel : Nat) (bytes : List Byte) (s : State) :
    (loadAndRunCommand fuel bytes s).1.p.inert = s.p.inert ∨
      (loadAndRunCommand fuel bytes s).1.p.inert = (Flags.ofByte Config.resetP).inert := by
  unfold loadAndRunCommand
  dsimp only
  split
  · rw [runCommand_inert, ← loadCommand_p bytes s]
    exact (resetCommand_p_cases (loadCommand bytes s).1).imp (congrArg Flags.inert) (congrArg Flags.inert)
  · exact .inl (congrArg Flags.inert (loadCommand_p bytes s))

/-- Every command keeps the inert flags, or is one of the two that reset and gives them `RESET_P`'s bits. -/
theorem perform_inert_cases (fuel : Nat) (c : Command) (s : State) :
    (perform fuel c s).1.p.inert = s.p.inert ∨
      (c = .reset ∨ ∃ bytes, c = .loadAndRun bytes) ∧
        (perform fuel c s).1.p.inert = (Flags.ofByte Config.resetP).inert := by
  cases c with
  | load bytes => exact .inl (congrArg Flags.inert (loadCommand_p bytes s))
  | reset => exact (resetCommand_p_cases s).imp (congrArg Flags.inert) fun h => ⟨.inl rfl, congrArg Flags.inert h⟩
  | run => exact .inl (runCommand_inert fuel s)
  | step => exact .inl (stepCommand_inert s)
  | loadAndRun bytes => exact (loadAndRunCommand_inert_cases fuel bytes s).imp_right fun h => ⟨.inr ⟨bytes, rfl⟩, h⟩
  | memoryRead b => exact .inl (congrArg (·.p.inert) (memoryReadCommand_fst b s))
  | memoryWrite b v => exact .inl (congrArg Flags.inert (memoryWriteCommand_p b v s))
  | inspect => exact .inl (congrArg (·.p.inert) (inspectCommand_fst s))

/-- Carry is the first of the inert flags, so what fixes them all fixes it. -/
theorem Flags.carry_eq_of_inert_eq {p q : Flags} (h : p.inert = q.inert) : p.carry = q.carry :=
  congrArg Prod.fst h

/-- Settles O23: a step keeps the inert flags (`step_inert`), a command keeps them or resets (`perform_inert_cases`), and
Carry is one of them; the port is its definition. -/
theorem onlyTheCarryPortAndResetWriteCarry : Obligations.OnlyTheCarryPortAndResetWriteCarry :=
  ⟨fun _ => ⟨rfl, rfl⟩,
    fun _ _ h => Flags.carry_eq_of_inert_eq (step_inert h),
    fun fuel c s => (perform_inert_cases fuel c s).imp Flags.carry_eq_of_inert_eq
      (And.imp_right Flags.carry_eq_of_inert_eq)⟩

end Sys2Proof.Machine
end

section
/-! The decoder and the encoder against each other (30_encoding.md R50 to R59): what `decodeWith` accepts and what it
rejects, and that the rows of a table and the instructions are the same forms. -/

namespace Sys2Proof

/-! ## Any table -/

theorem ITab.wf_iff {tab : ITab} :
    tab.wf = true ↔ tab.uniqueKeys = true ∧ tab.lengthsAgree = true ∧ tab.modesAgree = true ∧ tab.oneHalt = true := by
  simp only [ITab.wf, Bool.and_eq_true, and_assoc]

/-- A form that a table has a row for is encoded under the opcode of such a row. -/
theorem ITab.opcodeOf_of_wellFormed {tab : ITab} {i : Instr} (h : i.wellFormed tab = true) :
    ∃ d ∈ tab, tab.opcodeOf i.mnemonic i.mode = some d.opcode ∧ d.mnemonic = i.mnemonic ∧ d.mode = i.mode := by
  obtain ⟨d, hfind⟩ := Option.isSome_iff_exists.1 (List.find?_isSome.2 (List.any_eq_true.1 h))
  have hform : d.mnemonic = i.mnemonic ∧ d.mode = i.mode := by simpa using List.find?_some hfind
  exact ⟨d, List.mem_of_find?_eq_some hfind, by rw [ITab.opcodeOf, hfind]; rfl, hform⟩

/-- Under the row of its form, an opcode byte and an instruction's operand bytes are decoded to that instruction. -/
theorem decodeWith_of_lookup {tab : ITab} {i : Instr} {d : Descriptor} {op : Byte} (hlookup : tab.lookup op = some d)
    (hmn : d.mnemonic = i.mnemonic) (hmd : d.mode = i.mode) (rest : List Byte) :
    decodeWith tab (op :: i.operand.bytes ++ rest) = .ok (i, rest) := by
  simp only [List.cons_append, decodeWith, hlookup, hmn, hmd, takeOperand_bytes, ofForm_of_instr]

/-- What `decodeWith` accepts: an opcode byte whose row has the form of the instruction answered, the instruction's
operand bytes, and the rest. -/
theorem decodeWith_eq_ok {tab : ITab} {bytes rest : List Byte} {i : Instr} (h : decodeWith tab bytes = .ok (i, rest)) :
    ∃ op d, tab.lookup op = some d ∧ d.mnemonic = i.mnemonic ∧ d.mode = i.mode ∧
      bytes = op :: i.operand.bytes ++ rest := by
  cases bytes with
  | nil => cases h
  | cons op tail =>
    simp only [decodeWith] at h
    split at h
    · cases h
    · next d hlookup =>
      split at h
      · cases h
      · next o rest' htake =>
        split at h
        · cases h
        · next j hform =>
          cases h
          obtain ⟨hmn, hmd, hoperand⟩ := eq_of_ofForm hform
          exact ⟨op, d, hlookup, hmn.symm, hmd.symm, by rw [eq_of_takeOperand htake, hoperand]; rfl⟩

/-- In a table with unique keys each row takes one of the 256 opcode bytes, and the others have no row (R55, R59). -/
theorem length_unlisted_add_length {tab : ITab} (hunique : tab.uniqueKeys = true) :
    ((List.range 256).filter fun n => (tab.lookup (BitVec.ofNat 8 n)).isNone).length + tab.length = 256 := by
  have hkeys : (tab.map Descriptor.opcode).Nodup := by simpa [ITab.uniqueKeys] using hunique
  have hlisted : List.Perm ((List.range 256).filter fun n => !(tab.lookup (BitVec.ofNat 8 n)).isNone)
      ((tab.map Descriptor.opcode).map BitVec.toNat) := by
    refine (List.perm_ext_iff_of_nodup (List.nodup_range.filter _)
      (hkeys.map fun _ _ => BitVec.eq_of_toNat_eq)).2 fun n => ?_
    simp only [List.mem_filter, List.mem_range, List.mem_map, exists_exists_and_eq_and]
    constructor
    · rintro ⟨hn, hsome⟩
      obtain ⟨d, hlookup⟩ := Option.isSome_iff_exists.1 (by simpa using hsome)
      obtain ⟨hmem, hop⟩ := mem_of_lookup hlookup
      exact ⟨d, hmem, by rw [hop, BitVec.toNat_ofNat, Nat.mod_eq_of_lt hn]⟩
    · rintro ⟨d, hmem, rfl⟩
      exact ⟨d.opcode.isLt, by rw [BitVec.ofNat_toNat, BitVec.setWidth_eq, lookup_of_mem hunique hmem]; rfl⟩
  have hsplit := List.length_eq_length_filter_add (l := List.range 256) fun n => (tab.lookup (BitVec.ofNat 8 n)).isNone
  have hrows := hlisted.length_eq
  rw [List.length_map, List.length_map] at hrows
  rw [List.length_range] at hsplit
  omega

/-- Settles O2: the encoder takes the opcode of a row of the instruction's form, and in a table with unique keys the
lookup of that opcode is that row. -/
theorem decodeInvertsEncodeUnderEveryTable : Obligations.DecodeInvertsEncodeUnderEveryTable := by
  intro tab i rest hwf hi
  obtain ⟨hunique, -⟩ := ITab.wf_iff.1 hwf
  obtain ⟨d, hmem, hopcode, hmn, hmd⟩ := ITab.opcodeOf_of_wellFormed hi
  refine ⟨d.opcode :: i.operand.bytes, by rw [encodeWith, hopcode]; rfl,
    decodeWith_of_lookup (lookup_of_mem hunique hmem) hmn hmd rest, ?_⟩
  rw [List.length_cons, length_operand_bytes, Nat.add_comm]

/-! ## `ITAB_DEFAULT` -/

/-- The rows of one form have one opcode. -/
theorem opcode_eq_of_row {i : Instr} {d : Descriptor} (hmem : d ∈ itabDefault) (hmn : d.mnemonic = i.mnemonic)
    (hmd : d.mode = i.mode) : d.opcode = i.opcode := by
  have hforms : ∀ d ∈ itabDefault, ∀ e ∈ itabDefault,
      d.mnemonic = e.mnemonic → d.mode = e.mode → d.opcode = e.opcode := by
    decide
  obtain ⟨e, he, hop, hmn', hmd', -⟩ := mem_itabDefault i
  exact (hforms d hmem e he (hmn.trans hmn'.symm) (hmd.trans hmd'.symm)).trans hop

/-- Every row is the row of an instruction: its form, with operand bytes of zero, is one. -/
theorem exists_instr_of_row {d : Descriptor} (hmem : d ∈ itabDefault) : ∃ i : Instr, i.opcode = d.opcode := by
  have hform : ∀ d ∈ itabDefault,
      ((takeOperand d.mode [0, 0]).bind fun r => Instr.ofForm d.mnemonic d.mode r.1).map Instr.opcode = some d.opcode := by
    decide
  obtain ⟨i, -, hop⟩ := Option.map_eq_some_iff.1 (hform d hmem)
  exact ⟨i, hop⟩

/-- The bytes without a row are those that are no instruction's opcode. -/
theorem lookup_eq_none_iff {b : Byte} : itabDefault.lookup b = none ↔ ∀ i : Instr, i.opcode ≠ b := by
  constructor
  · rintro hnone i rfl
    obtain ⟨d, hlookup, -⟩ := lookup_opcode i
    cases hnone.symm.trans hlookup
  · intro h
    cases hlookup : itabDefault.lookup b with
    | none => rfl
    | some d =>
      obtain ⟨hmem, hop⟩ := mem_of_lookup hlookup
      obtain ⟨i, hi⟩ := exists_instr_of_row hmem
      exact absurd (hi.trans hop) (h i)

theorem eq_encode_append_of_decode {bytes rest : List Byte} {i : Instr} (h : decode bytes = .ok (i, rest)) :
    bytes = encode i ++ rest := by
  obtain ⟨op, d, hlookup, hmn, hmd, hbytes⟩ := decodeWith_eq_ok h
  obtain ⟨hmem, hop⟩ := mem_of_lookup hlookup
  rw [hbytes, encode, ← opcode_eq_of_row hmem hmn hmd, hop]

theorem wellFormed_itabDefault (i : Instr) : i.wellFormed itabDefault = true := by
  obtain ⟨d, hmem, -, hmn, hmd, -⟩ := mem_itabDefault i
  exact List.any_eq_true.2 ⟨d, hmem, by simp [hmn, hmd]⟩

/-- Settles O3: an accepted opcode byte is that of the instruction's form (`opcode_eq_of_row`), and every form has its
row. -/
theorem decodedBytesAreTheEncoding : Obligations.DecodedBytesAreTheEncoding :=
  ⟨fun _ _ _ h => eq_encode_append_of_decode h, fun i rest => ⟨wellFormed_itabDefault i, decode_encode_append i rest⟩⟩

/-- Settles O4: a byte that is no instruction's opcode has no row (`lookup_eq_none_iff`), and the bytes without a row
are as many as `length_unlisted_add_length` leaves beside the 26 and the 6 rows. -/
theorem unlistedOpcodesAreRejected : Obligations.UnlistedOpcodesAreRejected := by
  refine ⟨fun b rest hb => ?_, ?_, ?_⟩
  · simp only [decode, decodeWith, lookup_eq_none_iff.2 hb]
  · exact Nat.add_right_cancel (length_unlisted_add_length (tab := itabDefault) (by decide))
  · exact Nat.add_right_cancel (length_unlisted_add_length (tab := itabSource) (by decide))

/-- Settles O1: each word is the encoding of its instruction. -/
theorem specWordsDecode : Obligations.SpecWordsDecode := fun rest =>
  ⟨decode_encode_append (.ldaImm 0xC0) rest, decode_encode_append (.ldaZp 0x10) rest,
    decode_encode_append (.ldaAbsX 0x02FF) rest, decode_encode_append (.staAbs 0x0200) rest,
    decode_encode_append (.staIndY 0x20) rest, decode_encode_append (.andAbsY 0x0200) rest,
    decode_encode_append (.andIndX 0xFD) rest, decode_encode_append .tax rest, decode_encode_append .inx rest,
    decode_encode_append .brk rest⟩

end Sys2Proof
end

section
/-! Memory (20_memory.md): the word write and its frame (R35), the bulk load (R44), and that canonical memories are
equal where their reads are. -/

namespace Sys2Proof.Machine

/-! ## Words -/

theorem State.read_writeWord_low {s : State} (hwf : Memory.wf s.mem) (b w : Word) :
    (s.writeWord b w).read b = lowByte w := by
  rw [State.writeWord, State.read_write_ne _ _ (left_ne_add.2 (by decide)), State.read_write_same hwf]

theorem State.read_writeWord_high {s : State} (hwf : Memory.wf s.mem) (b w : Word) :
    (s.writeWord b w).read (b + 1) = highByte w :=
  State.read_write_same (State.wf_write hwf b _) _ _

theorem State.read_writeWord_ne (s : State) {b c : Word} (w : Word) (hlow : c ≠ b) (hhigh : c ≠ b + 1) :
    (s.writeWord b w).read c = s.read c := by
  rw [State.writeWord, State.read_write_ne _ _ hhigh, State.read_write_ne _ _ hlow]

theorem State.readWord_writeWord_same {s : State} (hwf : Memory.wf s.mem) (b w : Word) :
    (s.writeWord b w).readWord b = w := by
  rw [State.readWord, State.read_writeWord_low hwf, State.read_writeWord_high hwf, concatBytes_high_low]

/-- Settles O5: the two bytes stand low byte first, and a word is put together from its bytes (`concatBytes_high_low`). -/
theorem wordWriteThenReadReturnsTheWord : Obligations.WordWriteThenReadReturnsTheWord := fun s b w hwf =>
  ⟨State.readWord_writeWord_same hwf b w,
    by rw [State.read_writeWord_low hwf, toNat_lowByte],
    by rw [State.read_writeWord_high hwf, toNat_highByte],
    fun _ => s.read_writeWord_ne w, rfl⟩

/-! ## The bulk load -/

theorem State.loadImage_of_fits {bytes : List Byte} {base : Word} (s : State) (h : base.toNat + bytes.length ≤ 0x10000) :
    s.loadImage bytes base = some (State.writeBytes bytes base s) := if_pos h

theorem State.loadImage_of_not_fits {bytes : List Byte} {base : Word} (s : State)
    (h : 0x10000 < base.toNat + bytes.length) : s.loadImage bytes base = none := if_neg (Nat.not_le.2 h)

/-- Settles O6: where the image fits, the load is `writeBytes`, whose bytes are read back inside and which leaves the
cells outside. -/
theorem loadImageCopiesTheBytes : Obligations.LoadImageCopiesTheBytes := fun s bytes base hwf =>
  ⟨s.loadImage_of_not_fits, fun hfits => ⟨_, s.loadImage_of_fits hfits,
    State.read_writeBytes_inside hwf hfits, fun _ hb => State.read_writeBytes_outside (.inr ⟨hfits, hb⟩),
    State.writeBytes_eq bytes base s⟩⟩

/-! ## Canonical memories -/

/-- Below the first address of a canonical memory every cell reads as unlisted. -/
theorem readCell_of_lt {k : Nat} {v : Byte} {m : Memory} (h : Memory.wf ((k, v) :: m)) {a : Nat} (ha : a ≤ k) :
    readCell m a = unlistedByte :=
  readCell_of_not_mem fun c hc => by have := (List.pairwise_cons.1 h.1).1 c hc; simp only at this; omega

theorem Memory.wf_tail {c : Host.Cell} {m : Memory} (h : Memory.wf (c :: m)) : Memory.wf m :=
  ⟨(List.pairwise_cons.1 h.1).2, fun _ hd => h.2 _ (List.mem_cons_of_mem c hd)⟩

theorem readCell_head (k : Nat) (v : Byte) (m : Memory) : readCell ((k, v) :: m) k = v := if_pos rfl

/-- The first cell of a canonical memory is told from every memory that has nothing at its address. -/
theorem readCell_head_ne {k : Nat} {v : Byte} {m : Memory} (h : Memory.wf ((k, v) :: m)) :
    readCell ((k, v) :: m) k ≠ unlistedByte := by
  rw [readCell_head]; exact (h.2 _ List.mem_cons_self).2

/-- Canonical memories with the same reads below `MEM_SIZE` are equal: their first cells agree, and then their tails. -/
theorem eq_of_readCell_eq {m n : Memory} (hm : Memory.wf m) (hn : Memory.wf n)
    (h : ∀ a < 0x10000, readCell m a = readCell n a) : m = n := by
  induction m generalizing n with
  | nil =>
    cases n with
    | nil => rfl
    | cons d n => exact absurd (h d.1 (hn.2 d List.mem_cons_self).1).symm (readCell_head_ne hn)
  | cons c m ih =>
    obtain ⟨k, v⟩ := c
    have hk : k < 0x10000 := (hm.2 _ List.mem_cons_self).1
    cases n with
    | nil => exact absurd (h k hk) (readCell_head_ne hm)
    | cons d n =>
      obtain ⟨j, w⟩ := d
      have hj : j < 0x10000 := (hn.2 _ List.mem_cons_self).1
      have hkj : k = j := by
        rcases lt_trichotomy k j with hlt | heq | hgt
        · refine absurd ((h k hk).trans ?_) (readCell_head_ne hm)
          rw [readCell, if_neg (by omega), readCell_of_lt hn hlt.le]
        · exact heq
        · refine absurd ((h j hj).symm.trans ?_) (readCell_head_ne hn)
          rw [readCell, if_neg (by omega), readCell_of_lt hm hgt.le]
      subst hkj
      have hvw : v = w := by simpa only [readCell_head] using h k hk
      have htail : m = n := ih (Memory.wf_tail hm) (Memory.wf_tail hn) fun a ha => by
        by_cases hak : a = k
        · rw [hak, readCell_of_lt hm le_rfl, readCell_of_lt hn le_rfl]
        · simpa only [readCell, if_neg (Ne.symm hak)] using h a ha
      rw [hvw, htail]

/-- Settles O7: every address below `MEM_SIZE` is a word, so equal reads are equal cells. -/
theorem equalReadsMakeEqualMemories : Obligations.EqualReadsMakeEqualMemories := fun s t hs ht h =>
  eq_of_readCell_eq hs ht fun a ha => by
    have hread := h (BitVec.ofNat 16 a)
    rwa [State.read, State.read, BitVec.toNat_ofNat, Nat.mod_eq_of_lt ha] at hread

end Sys2Proof.Machine
end

section
/-! The packed status byte of the inspection port (10_state.md R14): packing and unpacking are inverse, so a fact
about the packed byte is a fact about eight flags. -/

namespace Sys2Proof.Machine

/-- The bits of the packed byte, Carry lowest. -/
theorem Flags.getLsbD_toByte (p : Flags) (k : Nat) : p.toByte.getLsbD k =
    [p.carry, p.zero, p.interruptDisable, p.decimalMode, p.breakFlag, p.break2, p.overflow, p.negative].getD k false := by
  by_cases hk : k < 8
  · simp only [Flags.toByte, BitVec.getLsbD_append, BitVec.getLsbD_ofBool]
    interval_cases k <;> simp
  · rw [BitVec.getLsbD_of_ge _ _ (Nat.le_of_not_lt hk), List.getD_eq_default _ _ (Nat.le_of_not_lt hk)]

theorem Flags.ofByte_toByte (p : Flags) : Flags.ofByte p.toByte = p := by
  simp only [Flags.ofByte, Flags.getLsbD_toByte]; rfl

theorem Flags.toByte_ofByte (v : Byte) : (Flags.ofByte v).toByte = v := by
  refine BitVec.eq_of_getLsbD_eq fun k hk => ?_
  rw [Flags.getLsbD_toByte]
  interval_cases k <;> rfl

/-- Settles O22: the two directions of the packing; each place of the packed byte is by `Flags.getLsbD_toByte`. -/
theorem packedByteHoldsTheFlags : Obligations.PackedByteHoldsTheFlags :=
  ⟨Flags.toByte_ofByte, Flags.ofByte_toByte, fun s =>
    have hbit := s.p.getLsbD_toByte
    ⟨hbit 0, hbit 1, hbit 2, hbit 3, hbit 4, hbit 5, hbit 6, hbit 7⟩⟩

/-- Settles O21: the byte on the right unpacks to the flags of `setZN`, flag by flag. -/
theorem setZNOnThePackedByte : Obligations.SetZNOnThePackedByte := by
  intro p r
  have hunpacked : p.setZN r =
      Flags.ofByte ((p.toByte &&& 0x7D) ||| (if r = 0x00 then 0x02 else 0x00) ||| (r &&& 0x80)) := by
    conv_lhs => rw [← p.ofByte_toByte]
    by_cases hr : r = 0#8 <;> simp [Flags.setZN, Flags.ofByte, hr]
  rw [hunpacked, Flags.toByte_ofByte]

end Sys2Proof.Machine
end

section
/-! The resolver and the handlers (41_addressing_modes.md R90 to R100, 40_fetch_decode_pc.md R74 to R77): the readings
of IndirectY, and what each handler returns once the effective address of its mode is known. -/

namespace Sys2Proof.Machine

/-! ## IndirectY (R99) -/

theorem zext16_eq_ofNat_mod (v : Byte) : zext16 v = BitVec.ofNat 16 (v.toNat % 256) := by
  rw [zext16_eq_ofNat, Nat.mod_eq_of_lt v.isLt]

/-- A sum of two bytes as a page-zero address: it wraps at 256. -/
theorem zext16_add (v w : Byte) : zext16 (v + w) = BitVec.ofNat 16 ((v.toNat + w.toNat) % 256) := by
  rw [zext16_eq_ofNat, BitVec.toNat_add]

theorem zext16_add_succ (v w : Byte) : zext16 (v + w + 1) = BitVec.ofNat 16 ((v.toNat + w.toNat + 1) % 256) := by
  rw [zext16_add, BitVec.toNat_add, Nat.mod_add_mod]; rfl

/-- Settles O9: the pointer bytes of each reading by their page-zero addresses, and the sum with `Y` where the reading
takes it: at 16 bits, in the operand, or in the low byte. -/
theorem indirectYReadings : Obligations.IndirectYReadings := by
  intro s d zp ea
  have hbase : (s.read (zext16 (s.read s.pc))).toNat = zp d := by rw [zext16_eq_ofNat_mod]
  have hnext (v : Byte) : (s.read (zext16 (s.read s.pc + v))).toNat = zp (d + v.toNat) := by rw [zext16_add]
  have hnext_succ (v : Byte) : (s.read (zext16 (s.read s.pc + v + 1))).toNat = zp (d + v.toNat + 1) := by
    rw [zext16_add_succ]
  refine ⟨congrArg some ?_, congrArg some ?_, congrArg some ?_, fun _ => rfl⟩
  · rw [State.indirectYAddr, BitVec.toNat_add, toNat_zext16, State.zeroPagePointer, toNat_concatBytes, hbase, hnext 1]
    rw [Nat.mul_comm, Nat.add_comm (256 * _)]; rfl
  · rw [State.indirectYAddr, State.zeroPagePointer, toNat_concatBytes, hnext s.y, hnext_succ s.y, Nat.mul_comm,
      Nat.add_comm]
  · rw [State.indirectYAddr, toNat_concatBytes, BitVec.toNat_add, hbase, hnext 1, Nat.mul_comm, Nat.add_comm]; rfl

theorem zext16_zero : zext16 0#8 = 0#16 := rfl

/-- With nothing in `Y` to add, every reading takes the pointer at the operand. -/
theorem State.indirectYAddr_of_y_eq_zero {s : State} (hy : s.y = 0x00) (r : IndyReading) (d8 : Byte) :
    s.indirectYAddr r d8 = s.zeroPagePointer d8 := by
  cases r <;> simp [State.indirectYAddr, State.zeroPagePointer, hy, zext16_zero]

theorem State.effectiveAddress_of_y_eq_zero {s : State} (hy : s.y = 0x00) (r r' : IndyReading) (m : Mode) :
    s.effectiveAddress r m = s.effectiveAddress r' m := by
  cases m with
  | indirectY => simp only [State.effectiveAddress, State.indirectYAddr_of_y_eq_zero hy]
  | _ => rfl

/-! ## The handlers at their effective address -/

section Handlers

variable {s : State} {r : IndyReading} {m : Mode} {ea : Word}

theorem dispatch_lda (h : s.effectiveAddress r m = some ea) :
    dispatch r .lda m s = .returned (s.setA (s.read ea)) false := by
  simp only [dispatch, handleLda, withAddress, h]; rfl

theorem dispatch_and (h : s.effectiveAddress r m = some ea) :
    dispatch r .and m s = .returned (s.setA (s.a &&& s.read ea)) false := by
  simp only [dispatch, handleAnd, withAddress, h]; rfl

theorem dispatch_sta (h : s.effectiveAddress r m = some ea) :
    dispatch r .sta m s = .returned (s.write ea s.a) false := by
  simp only [dispatch, handleSta, withAddress, h]; rfl

/-- A handler that needs an address raises where its mode has none (60_exceptions.md R172). -/
theorem dispatch_of_effectiveAddress_eq_none {mn : Mnemonic} (hmn : mn.needsAddress = true)
    (h : s.effectiveAddress r m = none) : dispatch r mn m s = .ended (s.raise .invalidAddressingRequest) := by
  cases mn with
  | lda => simp only [dispatch, handleLda, withAddress, h]
  | sta => simp only [dispatch, handleSta, withAddress, h]
  | and => simp only [dispatch, handleAnd, withAddress, h]
  | tax | inx | brk => cases hmn

/-- The reading is seen by the effective address alone. -/
theorem dispatch_congr_reading {r' : IndyReading} (h : s.effectiveAddress r m = s.effectiveAddress r' m)
    (mn : Mnemonic) : dispatch r mn m s = dispatch r' mn m s := by
  cases mn with
  | lda => simp only [dispatch, handleLda, withAddress, h]
  | sta => simp only [dispatch, handleSta, withAddress, h]
  | and => simp only [dispatch, handleAnd, withAddress, h]
  | tax | inx | brk => rfl

end Handlers

/-- Settles O15: each handler at its effective address (`dispatch_lda`, `dispatch_and`, `dispatch_sta`). -/
theorem handlersFollowTheEffectiveAddress : Obligations.HandlersFollowTheEffectiveAddress := fun _ _ s ea h =>
  ⟨⟨_, dispatch_lda h, rfl, rfl, rfl, rfl, rfl⟩,
    ⟨_, dispatch_and h, fun _ => BitVec.getLsbD_and, rfl, BitVec.getLsbD_and, rfl, rfl⟩,
    ⟨_, dispatch_sta h, fun hwf => State.read_write_same hwf ea s.a, fun _ => s.read_write_ne s.a, rfl⟩⟩

/-- Settles O31: of the five ends of a dispatch (`dispatch_cases`) three return with `pc_we` clear, two end the step,
and none has moved `pc`. -/
theorem noHandlerWritesPc : Obligations.NoHandlerWritesPc := by
  refine ⟨fun _ _ _ => rfl, fun r mn m s => ?_⟩
  rcases dispatch_cases r mn m s with ⟨v, -, e⟩ | ⟨v, -, e⟩ | ⟨ea, -, e⟩ | ⟨-, e⟩ | ⟨-, -, e⟩ <;> rw [e]
  case inl | inr.inl | inr.inr.inl =>
    exact ⟨fun t we h => (by cases h; exact ⟨rfl, rfl, fun _ => rfl⟩), fun t h => by cases h⟩
  case inr.inr.inr.inl | inr.inr.inr.inr =>
    exact ⟨fun t we h => (by cases h), fun t h => by cases h; exact ⟨rfl, fun _ => rfl⟩⟩

/-! ## The forms of LDA, AND and STA -/

/-- A meaning that is `setA` and the length advance loads `A`, with nothing else changed. -/
theorem loadsA_of_exec_eq_setA {i : Instr} {v : Byte} {n : Word} {s : State}
    (h : exec i s = .next ((s.setA v).setPc (s.pc + n))) : Claims.LoadsA i v n s :=
  ⟨_, h, rfl, s.p.setZN_zero_eq_toNat v, s.p.setZN_negative_eq_toNat v, s.p.setZN_inert v,
    rfl, rfl, rfl, rfl, rfl, rfl, fun _ => rfl⟩

/-- A meaning that is the write of `A` and the length advance stores `A`, with nothing else changed. -/
theorem storesA_of_exec_eq_write {i : Instr} {ea n : Word} {s : State} (hwf : Memory.wf s.mem)
    (h : exec i s = .next ((s.write ea s.a).setPc (s.pc + n))) : Claims.StoresA i ea n s :=
  ⟨_, h, State.read_write_same hwf ea s.a, fun _ => s.read_write_ne s.a, rfl, rfl, rfl, rfl, rfl, rfl, rfl, rfl⟩

/-- Settles O11: each form's meaning is `setA` of the byte at its address. -/
theorem ldaFormsLoadTheAddressedByte : Obligations.LdaFormsLoadTheAddressedByte := fun _ _ _ =>
  ⟨loadsA_of_exec_eq_setA rfl, loadsA_of_exec_eq_setA rfl, loadsA_of_exec_eq_setA rfl, loadsA_of_exec_eq_setA rfl,
    loadsA_of_exec_eq_setA rfl, loadsA_of_exec_eq_setA rfl, loadsA_of_exec_eq_setA rfl, loadsA_of_exec_eq_setA rfl⟩

/-- Settles O12: each form's meaning is `setA` of `A` masked with the byte at its address. -/
theorem andFormsMaskWithTheAddressedByte : Obligations.AndFormsMaskWithTheAddressedByte := fun _ _ _ =>
  ⟨loadsA_of_exec_eq_setA rfl, loadsA_of_exec_eq_setA rfl, loadsA_of_exec_eq_setA rfl, loadsA_of_exec_eq_setA rfl,
    loadsA_of_exec_eq_setA rfl, loadsA_of_exec_eq_setA rfl, loadsA_of_exec_eq_setA rfl, loadsA_of_exec_eq_setA rfl⟩

/-- Settles O13: each form's meaning is the write of `A` at its address. -/
theorem staFormsStoreAtTheirAddress : Obligations.StaFormsStoreAtTheirAddress := fun _ _ _ hwf =>
  ⟨storesA_of_exec_eq_write hwf rfl, storesA_of_exec_eq_write hwf rfl, storesA_of_exec_eq_write hwf rfl,
    storesA_of_exec_eq_write hwf rfl, storesA_of_exec_eq_write hwf rfl, storesA_of_exec_eq_write hwf rfl,
    storesA_of_exec_eq_write hwf rfl⟩

/-! ## The operand of the decoded instruction, at `pc` -/

section Operand

variable {s : State} {i : Instr} {rest : List Byte}

/-- What is decoded at `pc` has its opcode byte there. -/
theorem opcode_of_decode (h : decode s.fetchBytes = .ok (i, rest)) : i.opcode = s.read s.pc :=
  (List.cons.inj (eq_encode_append_of_decode h)).1.symm

theorem read_of_decode_byte {d8 : Byte} (h : decode s.fetchBytes = .ok (i, rest)) (ho : i.operand = .byte d8) :
    s.read (s.pc + 1) = d8 := by
  have hbytes := eq_encode_append_of_decode h
  rw [encode, ho] at hbytes
  exact (List.cons.inj (List.cons.inj hbytes).2).1

theorem readWord_of_decode_word {a16 : Word} (h : decode s.fetchBytes = .ok (i, rest)) (ho : i.operand = .word a16) :
    s.readWord (s.pc + 1) = a16 := by
  have hbytes := eq_encode_append_of_decode h
  rw [encode, ho] at hbytes
  obtain ⟨-, hbytes⟩ := List.cons.inj hbytes
  obtain ⟨hlow, hbytes⟩ := List.cons.inj hbytes
  obtain ⟨hhigh, -⟩ := List.cons.inj hbytes
  have hnext : s.pc + 1 + 1 = s.pc + 2 := word_succ_succ s.pc
  rw [State.readWord, hnext, hlow, hhigh, concatBytes_high_low]

/-- An instruction without operand has the mode without address. -/
theorem mode_of_operand_eq_none (h : i.operand = .none) : i.mode = .noneAddressing := by
  cases i
  case tax | inx | brk => rfl
  all_goals cases h

end Operand

/-- Settles O14: the decoded operand is what the resolver reads at `pc`, so each mode's address is over that operand. -/
theorem meaningAddressesAreTheResolvers : Obligations.MeaningAddressesAreTheResolvers := by
  intro s i rest h ea
  have hea {m : Mode} (hm : i.mode = m) : ea = s.advance.effectiveAddress indyReading m := by rw [← hm]
  refine ⟨fun d8 ho => ?_, fun a16 ho => ?_, fun ho => State.effectiveAddress_eq_none.2 (mode_of_operand_eq_none ho)⟩
  · obtain rfl := read_of_decode_byte h ho
    exact ⟨fun hm => ⟨hea hm, rfl⟩, hea, hea, hea, hea⟩
  · obtain rfl := readWord_of_decode_word h ho
    exact ⟨hea, hea, hea⟩

end Sys2Proof.Machine
end

section
/-! The step as one instruction of the table machine and what the lifecycle does around it (40_fetch_decode_pc.md R78,
70_reset_and_hazards.md R204, R205): an equation for each lifecycle state and for each way the opcode byte is found. -/

namespace Sys2Proof.Machine

/-! ## The lifecycle around an instruction -/

section LifecycleStep

variable {body : State → Host.Outcome State Fault Refusal} {s : State}

theorem lifecycleStep_of_running (h : s.ls = .running) : lifecycleStep body s = body s := by
  simp only [lifecycleStep, h]

theorem lifecycleStep_of_faulted (h : s.ls = .faulted) : lifecycleStep body s = .fault .machineFaulted := by
  simp only [lifecycleStep, h]

theorem lifecycleStep_of_stopped (hr : s.ls ≠ .running) (hf : s.ls ≠ .faulted) :
    lifecycleStep body s = mapNext State.settle (body (s.setLs .running)) := by
  unfold lifecycleStep
  split
  · exact absurd ‹_› hr
  · rfl
  · rfl
  · rfl
  · rfl
  · exact absurd ‹_› hf

end LifecycleStep

theorem State.setLs_of_eq {s : State} {l : Lifecycle} (h : s.ls = l) : s.setLs l = s := by rw [← h]; rfl

/-- The state in which a step ends that was taken in the lifecycle state `l`: the internal step of Running does not
settle. -/
def State.settleFrom (l : Lifecycle) (u : State) : State := if l = .running then u else u.settle

section SettleFrom

variable (l : Lifecycle) (u : State)

@[simp] theorem State.settleFrom_a : (u.settleFrom l).a = u.a := by unfold State.settleFrom; split <;> simp
@[simp] theorem State.settleFrom_x : (u.settleFrom l).x = u.x := by unfold State.settleFrom; split <;> simp
@[simp] theorem State.settleFrom_y : (u.settleFrom l).y = u.y := by unfold State.settleFrom; split <;> simp
@[simp] theorem State.settleFrom_sp : (u.settleFrom l).sp = u.sp := by unfold State.settleFrom; split <;> simp
@[simp] theorem State.settleFrom_p : (u.settleFrom l).p = u.p := by unfold State.settleFrom; split <;> simp
@[simp] theorem State.settleFrom_pc : (u.settleFrom l).pc = u.pc := by unfold State.settleFrom; split <;> simp
@[simp] theorem State.settleFrom_mem : (u.settleFrom l).mem = u.mem := by unfold State.settleFrom; split <;> simp
@[simp] theorem State.settleFrom_fr : (u.settleFrom l).fr = u.fr := by unfold State.settleFrom; split <;> simp
@[simp] theorem State.read_settleFrom (b : Word) : (u.settleFrom l).read b = u.read b := by
  unfold State.settleFrom; split <;> simp

variable {l u}

theorem State.settleFrom_ls_of_running (h : u.ls = .running) :
    (u.settleFrom l).ls = if l = .running then .running else .ready := by
  unfold State.settleFrom
  split
  · exact h
  · rw [State.settle_ls, if_pos h]

theorem State.settleFrom_of_not_running (h : u.ls ≠ .running) : u.settleFrom l = u := by
  rw [State.settleFrom, State.settle, if_neg h, ite_self]

end SettleFrom

/-! ## The table machine -/

section TableMachine

variable {params : Params} {s t : State}

theorem tableStep_of_not_faulted (h : s.ls ≠ .faulted) :
    tableStep params s = .next ((tableInstruction params (s.setLs .running)).settleFrom s.ls) := by
  unfold tableStep State.settleFrom
  split
  · next hr => rw [lifecycleStep_of_running hr, State.setLs_of_eq hr]
  · next hr => rw [lifecycleStep_of_stopped hr h]; rfl

theorem tableStep_next (h : tableStep params s = .next t) :
    s.ls ≠ .faulted ∧ t = (tableInstruction params (s.setLs .running)).settleFrom s.ls := by
  by_cases hf : s.ls = .faulted
  · rw [tableStep, lifecycleStep_of_faulted hf] at h; cases h
  · rw [tableStep_of_not_faulted hf] at h; cases h; exact ⟨hf, rfl⟩

theorem tableInstruction_of_lookup_none (h : params.itab.lookup (s.read s.pc) = none) :
    tableInstruction params s = s.advance.raise (.unrecognizedOpcode (s.read s.pc) s.pc) := by
  simp only [tableInstruction, State.opcodeByte, h]

theorem tableInstruction_of_lookup {d : Descriptor} (h : params.itab.lookup (s.read s.pc) = some d) :
    tableInstruction params s = pcMux d.length (dispatch params.reading d.mnemonic d.mode s.advance) := by
  simp only [tableInstruction, State.opcodeByte, h]

theorem tableStep_takes_unrecognizedOpcode (hf : s.ls ≠ .faulted) (h : params.itab.lookup (s.read s.pc) = none) :
    Claims.TakesUnrecognizedOpcode (tableStep params s) s := by
  rw [tableStep_of_not_faulted hf, tableInstruction_of_lookup_none (s := s.setLs .running) h,
    State.settleFrom_of_not_running (by simp)]
  exact ⟨_, rfl, rfl, rfl, rfl, rfl, rfl, rfl, rfl, rfl, fun _ => rfl⟩

end TableMachine

theorem tableInstruction_of_y_eq_zero {s : State} (params : Params) (r : IndyReading) (hy : s.y = 0x00) :
    tableInstruction { params with reading := r } s = tableInstruction params s := by
  cases h : params.itab.lookup (s.read s.pc) with
  | none =>
    rw [tableInstruction_of_lookup_none (params := { params with reading := r }) h, tableInstruction_of_lookup_none h]
  | some d =>
    rw [tableInstruction_of_lookup (params := { params with reading := r }) h, tableInstruction_of_lookup h,
      dispatch_congr_reading (State.effectiveAddress_of_y_eq_zero (s := s.advance) hy r params.reading d.mode)]

/-- Settles O10: the instruction sees the reading through the effective address alone, which is the same under each
(`tableInstruction_of_y_eq_zero`), and the change of `ls` before it keeps `Y`. -/
theorem readingsAgreeWhenYIsZero : Obligations.ReadingsAgreeWhenYIsZero := by
  intro params r s hy
  have hinstruction := tableInstruction_of_y_eq_zero (s := s.setLs .running) params r hy
  by_cases hf : s.ls = .faulted
  · rw [tableStep, tableStep, lifecycleStep_of_faulted hf, lifecycleStep_of_faulted hf]
  · rw [tableStep_of_not_faulted hf, tableStep_of_not_faulted hf, hinstruction]

/-- A well-formed table gives exactly the mnemonics that need an address a mode that has one (30_encoding.md R56). -/
theorem needsAddress_of_wf {tab : ITab} {d : Descriptor} (hwf : tab.wf = true) (hmem : d ∈ tab) :
    d.mnemonic.needsAddress = (d.mode != .noneAddressing) := by
  obtain ⟨-, -, hmodes, -⟩ := ITab.wf_iff.1 hwf
  exact beq_iff_eq.1 (List.all_eq_true.1 hmodes d hmem)

/-- Settles O32: of the ends of an instruction one writes the record of O33, which wants a row that `needsAddress_of_wf`
excludes; the others leave `fr` or record the byte. -/
theorem wellFormedTablesNeverAskForNoAddress : Obligations.WellFormedTablesNeverAskForNoAddress := by
  intro params s t hwf hstep hfr
  obtain ⟨-, rfl⟩ := tableStep_next hstep
  rw [State.settleFrom_fr]
  rcases tableInstruction_cases params (s.setLs .running) with
    ⟨-, e⟩ | ⟨d, hlookup, ⟨v, -, e⟩ | ⟨v, -, e⟩ | ⟨ea, -, e⟩ | ⟨-, e⟩ | ⟨hneeds, hmode, -⟩⟩
  · rw [e]; simp
  · rw [e]; exact hfr
  · rw [e]; exact hfr
  · rw [e]; exact hfr
  · rw [e]; exact hfr
  · have hrow := needsAddress_of_wf hwf (mem_of_lookup hlookup).1
    simp [hneeds, hmode] at hrow

/-- Settles O33: the handler raises (`dispatch_of_effectiveAddress_eq_none`), which ends the step, and Faulted does not
settle. -/
theorem addresslessRowTakesInvalidAddressingRequest : Obligations.AddresslessRowTakesInvalidAddressingRequest := by
  intro params s d hf hlookup hmn hmode
  have hneeds : d.mnemonic.needsAddress = true := by rcases hmn with h | h | h <;> rw [h] <;> rfl
  have hraise : tableInstruction params (s.setLs .running) =
      (s.setLs .running).advance.raise .invalidAddressingRequest := by
    rw [tableInstruction_of_lookup (s := s.setLs .running) hlookup,
      dispatch_of_effectiveAddress_eq_none hneeds (State.effectiveAddress_eq_none.2 hmode)]
    rfl
  rw [tableStep_of_not_faulted hf, hraise, State.settleFrom_of_not_running (by simp)]
  exact ⟨_, rfl, rfl, rfl, rfl, rfl, rfl, rfl, rfl, rfl, fun _ => rfl⟩

/-! ## The step is the table machine at the defaults -/

/-- One instruction, decoded and run, is the row looked up and dispatched, at the defaults (90_conflicts.md C4). -/
theorem runInstruction_eq (s : State) : runInstruction s = .next (tableInstruction Params.default s) := by
  rcases fetch_cases s with ⟨hlookup, hdecode⟩ | ⟨d, i, rest, hlookup, hdecode, -, -, -, -, hexec⟩
  · rw [tableInstruction_of_lookup_none (params := Params.default) hlookup]
    simp only [runInstruction, hdecode]; rfl
  · rw [tableInstruction_of_lookup (params := Params.default) hlookup]
    simp only [runInstruction, hdecode]; exact hexec

/-- Settles O25: the two steps are one lifecycle around the same instruction (`runInstruction_eq`). -/
theorem stepIsTheTableMachineAtTheDefaults : Obligations.StepIsTheTableMachineAtTheDefaults := fun s =>
  congrArg (lifecycleStep · s) (funext runInstruction_eq)

theorem step_of_not_faulted {s : State} (h : s.ls ≠ .faulted) :
    step s = .next ((tableInstruction Params.default (s.setLs .running)).settleFrom s.ls) := by
  rw [stepIsTheTableMachineAtTheDefaults, tableStep_of_not_faulted h]

theorem step_eq_next {s t : State} (h : step s = .next t) :
    s.ls ≠ .faulted ∧ t = (tableInstruction Params.default (s.setLs .running)).settleFrom s.ls :=
  tableStep_next ((stepIsTheTableMachineAtTheDefaults s).symm.trans h)

/-- Settles O27: the step is `lifecycleStep`, which stops in Faulted and elsewhere runs an instruction that always
completes. -/
theorem everyStepCompletesUnlessFaulted : Obligations.EveryStepCompletesUnlessFaulted := fun _ =>
  ⟨lifecycleStep_of_faulted, fun h => ⟨_, step_of_not_faulted h⟩⟩

theorem step_takes_unrecognizedOpcode {s : State} (hf : s.ls ≠ .faulted) (h : ∀ i : Instr, i.opcode ≠ s.read s.pc) :
    Claims.TakesUnrecognizedOpcode (step s) s := by
  rw [stepIsTheTableMachineAtTheDefaults]
  exact tableStep_takes_unrecognizedOpcode hf (lookup_eq_none_iff.2 h)

/-- Settles O26: the byte without a row raises, for any table; without a table it is `lookup_eq_none_iff`. -/
theorem unlistedByteTakesUnrecognizedOpcode : Obligations.UnlistedByteTakesUnrecognizedOpcode :=
  ⟨fun _ _ => tableStep_takes_unrecognizedOpcode, fun _ => step_takes_unrecognizedOpcode⟩

/-- Settles O24: the decoded instruction's meaning is the body of the lifecycle, and settling is written out. -/
theorem stepRunsTheDecodedInstruction : Obligations.StepRunsTheDecodedInstruction := by
  intro s i rest hdecode
  have hrun (l : Lifecycle) : runInstruction (s.setLs l) = exec i ((s.setLs l).setPc (s.pc + 1)) := by
    simp only [runInstruction, State.fetchBytes_setLs, hdecode]; rfl
  refine ⟨fun hr => ?_, fun hr hf o ho => ?_⟩
  · rw [step, machineStep, lifecycleStep_of_running hr, ← State.setLs_of_eq hr]
    exact hrun .running
  · rw [step, machineStep, lifecycleStep_of_stopped hr hf, hrun, ho]
    rfl

end Sys2Proof.Machine
end

section
/-! What a step at the default parameters does, by the instruction decoded at `pc` (40_fetch_decode_pc.md R78): the
inversion `tableInstruction_default_cases`, and from it what a step writes, where it leaves `pc`, and in which
lifecycle state it ends. -/

namespace Sys2Proof.Machine

/-! ## Instructions -/

theorem Instr.length_eq (i : Instr) : i.length = 1 + i.mode.operandBytes := by
  rw [Instr.length, encode, List.length_cons, length_operand_bytes, Nat.add_comm]

theorem Instr.needsAddress_eq (i : Instr) : i.mnemonic.needsAddress = (i.mode != .noneAddressing) := by
  cases i <;> rfl

theorem Instr.eq_brk_of_mnemonic {i : Instr} (h : i.mnemonic = .brk) : i = .brk := by
  cases i
  case brk => rfl
  all_goals cases h

/-- The halt byte is the opcode of BRK alone. -/
theorem Instr.opcode_eq_zero_iff {i : Instr} : i.opcode = 0x00 ↔ i.mnemonic = .brk := by
  constructor
  · intro h
    cases i
    case brk => rfl
    all_goals simp [Instr.opcode] at h
  · intro h
    rw [Instr.eq_brk_of_mnemonic h]; rfl

/-! ## The fetch -/

section Fetch

variable {s : State} {i : Instr} {rest : List Byte}

/-- The bytes at `pc` decode to an instruction, or begin with a byte that is no instruction's opcode. -/
theorem unlisted_or_decode (s : State) :
    (∀ i : Instr, i.opcode ≠ s.read s.pc) ∨ ∃ i rest, decode s.fetchBytes = .ok (i, rest) := by
  rcases fetch_cases s with ⟨hlookup, -⟩ | ⟨-, i, rest, -, hdecode, -⟩
  · exact .inl (lookup_eq_none_iff.1 hlookup)
  · exact .inr ⟨i, rest, hdecode⟩

theorem not_unlisted_of_decode (h : decode s.fetchBytes = .ok (i, rest)) : ¬∀ i : Instr, i.opcode ≠ s.read s.pc :=
  fun hall => hall i (opcode_of_decode h)

theorem decode_of_halt_byte (h : s.read s.pc = 0x00) :
    decode s.fetchBytes = .ok (.brk, [s.read (s.pc + 1), s.read (s.pc + 2)]) := by
  rw [State.fetchBytes, h]
  exact decode_encode_append .brk _

theorem tableInstruction_of_unlisted (h : ∀ i : Instr, i.opcode ≠ s.read s.pc) :
    tableInstruction Params.default s = s.advance.raise (.unrecognizedOpcode (s.read s.pc) s.pc) :=
  tableInstruction_of_lookup_none (params := Params.default) (lookup_eq_none_iff.2 h)

/-- The instruction decoded at `pc` is dispatched on its mnemonic and mode. -/
theorem tableInstruction_of_decode (h : decode s.fetchBytes = .ok (i, rest)) :
    tableInstruction Params.default s = pcMux i.length (dispatch indyReading i.mnemonic i.mode s.advance) := by
  rcases fetch_cases s with ⟨-, hdecode⟩ | ⟨d, j, rest', hlookup, hdecode, hmn, hmd, -, hlen, -⟩
  · cases h.symm.trans hdecode
  · cases h.symm.trans hdecode
    rw [tableInstruction_of_lookup (params := Params.default) hlookup, hmn, hmd, hlen]; rfl

/-- Past the opcode and then past the operand is past the instruction. -/
theorem word_add_length (b : Word) (i : Instr) :
    b + 1 + BitVec.ofNat 16 (i.length - 1) = b + BitVec.ofNat 16 i.length := by
  rw [Instr.length_eq, Nat.add_sub_cancel_left, BitVec.ofNat_add, BitVec.add_assoc]; rfl

/-- What the instruction decoded at `pc` does: one of four things, by its mnemonic. -/
theorem tableInstruction_default_cases (h : decode s.fetchBytes = .ok (i, rest)) :
    (∃ v, (i.mnemonic = .lda ∨ i.mnemonic = .and) ∧
      tableInstruction Params.default s = (s.advance.setA v).setPc (s.pc + BitVec.ofNat 16 i.length)) ∨
    (∃ v, (i.mnemonic = .tax ∨ i.mnemonic = .inx) ∧
      tableInstruction Params.default s = (s.advance.setX v).setPc (s.pc + BitVec.ofNat 16 i.length)) ∨
    (∃ ea, i.mnemonic = .sta ∧
      tableInstruction Params.default s = (s.advance.write ea s.a).setPc (s.pc + BitVec.ofNat 16 i.length)) ∨
    (i.mnemonic = .brk ∧ tableInstruction Params.default s = s.advance.setLs .halted) := by
  rw [tableInstruction_of_decode h, ← word_add_length]
  rcases dispatch_cases indyReading i.mnemonic i.mode s.advance with
    ⟨v, hmn, e⟩ | ⟨v, hmn, e⟩ | ⟨ea, hmn, e⟩ | ⟨hmn, e⟩ | ⟨hneeds, hmode, -⟩
  case inr.inr.inr.inr =>
    have hrow := Instr.needsAddress_eq i
    simp [hneeds, hmode] at hrow
  all_goals rw [e]
  · exact .inl ⟨v, hmn, rfl⟩
  · exact .inr (.inl ⟨v, hmn, rfl⟩)
  · exact .inr (.inr (.inl ⟨ea, hmn, rfl⟩))
  · exact .inr (.inr (.inr ⟨hmn, rfl⟩))

theorem State.advance_setLs (s : State) (l : Lifecycle) : (s.setLs l).advance = s.advance.setLs l := rfl

theorem State.effectiveAddress_setLs (s : State) (l : Lifecycle) (r : IndyReading) (m : Mode) :
    (s.setLs l).effectiveAddress r m = s.effectiveAddress r m := rfl

/-! ## `pc` -/

theorem tableInstruction_pc_of_decode (h : decode s.fetchBytes = .ok (i, rest)) :
    (tableInstruction Params.default s).pc = s.pc + BitVec.ofNat 16 i.length := by
  rcases tableInstruction_default_cases h with ⟨v, -, e⟩ | ⟨v, -, e⟩ | ⟨ea, -, e⟩ | ⟨hbrk, e⟩ <;> rw [e]
  case inr.inr.inr => rw [Instr.eq_brk_of_mnemonic hbrk]; rfl
  all_goals rfl

/-! ## `ls` -/

/-- In which lifecycle state an instruction ends that ran in Running, by its opcode byte. -/
theorem tableInstruction_ls_cases (hr : s.ls = .running) :
    ((∀ i : Instr, i.opcode ≠ s.read s.pc) ∧ (tableInstruction Params.default s).ls = .faulted) ∨
    ∃ i : Instr, i.opcode = s.read s.pc ∧ (i.mnemonic = .brk ∧ (tableInstruction Params.default s).ls = .halted ∨
      i.mnemonic ≠ .brk ∧ (tableInstruction Params.default s).ls = .running) := by
  rcases unlisted_or_decode s with hall | ⟨i, rest, h⟩
  · exact .inl ⟨hall, by rw [tableInstruction_of_unlisted hall]; rfl⟩
  · refine .inr ⟨i, opcode_of_decode h, ?_⟩
    rcases tableInstruction_default_cases h with ⟨v, hmn, e⟩ | ⟨v, hmn, e⟩ | ⟨ea, hmn, e⟩ | ⟨hmn, e⟩ <;> rw [e]
    · exact .inr ⟨by rcases hmn with hmn | hmn <;> simp [hmn], hr⟩
    · exact .inr ⟨by rcases hmn with hmn | hmn <;> simp [hmn], hr⟩
    · exact .inr ⟨by simp [hmn], hr⟩
    · exact .inl ⟨hmn, rfl⟩

end Fetch

/-! ## The statements -/

/-- Settles O18: the meaning of BRK is `setLs`; as a step, the halt byte decodes to it, and Halted does not settle. -/
theorem brkOnlyHalts : Obligations.BrkOnlyHalts := by
  refine ⟨fun s => ⟨_, rfl, rfl, rfl, rfl, rfl, rfl, rfl, rfl, rfl, fun _ => rfl⟩, fun s hf hbyte => ?_⟩
  have hhalt : tableInstruction Params.default (s.setLs .running) = (s.setLs .running).advance.setLs .halted :=
    tableInstruction_of_decode (decode_of_halt_byte (s := s.setLs .running) hbyte)
  rw [step_of_not_faulted hf, hhalt, State.settleFrom_of_not_running (by simp)]
  exact ⟨_, rfl, rfl, rfl, rfl, rfl, rfl, rfl, rfl, rfl, fun _ => rfl⟩

/-- Settles O20: the meanings write `P` by `setZN` of the register written (`exec_cases`), an unlisted byte takes the
fault entry, `reset` gives `P` the bits of `RESET_P`, and the commands that run nothing leave `P`. -/
theorem zeroAndNegativeAreDerived : Obligations.ZeroAndNegativeAreDerived := by
  refine ⟨fun i s t h => ?_, fun s t hall h => ?_, fun s t h => ?_, fun fuel s bytes b v => ?_⟩
  · rcases exec_cases i s with ⟨v, n, hmn, e⟩ | ⟨v, hmn, e⟩ | ⟨ea, n, hmn, e⟩ | ⟨hmn, e⟩ <;> cases e.symm.trans h
    · refine ⟨fun _ => ⟨rfl, rfl⟩, ?_⟩
      rcases hmn with hmn | hmn <;> simp [hmn]
    · refine ⟨?_, fun _ => ⟨rfl, rfl⟩, ?_⟩ <;> rcases hmn with hmn | hmn <;> simp [hmn]
    · simp [hmn]
    · simp [hmn]
  · obtain ⟨hf, -⟩ := step_eq_next h
    obtain ⟨u, hu, -, -, -, -, -, -, -, hp, -⟩ := step_takes_unrecognizedOpcode hf hall
    cases hu.symm.trans h
    exact hp
  · unfold resetCommand at h
    split at h <;> cases h
    exact ⟨rfl, rfl⟩
  · exact ⟨loadCommand_p bytes s, congrArg State.p (memoryReadCommand_fst b s), memoryWriteCommand_p b v s,
      congrArg State.p (inspectCommand_fst s)⟩

/-- Settles O28: by the three ends of an instruction (`tableInstruction_ls_cases`), of which Running alone settles. -/
theorem haltByteIsTheSoleWayToHalted : Obligations.HaltByteIsTheSoleWayToHalted := by
  intro s t h
  obtain ⟨-, rfl⟩ := step_eq_next h
  rcases tableInstruction_ls_cases (s := s.setLs .running) rfl with ⟨hall, hls⟩ | ⟨i, hop, ⟨hmn, hls⟩ | ⟨hmn, hls⟩⟩
  · rw [State.settleFrom_of_not_running (by simp [hls]), hls]
    exact ⟨⟨fun h' => (by cases h'), fun h' => absurd h'.symm (hall .brk)⟩, ⟨fun _ => hall, fun _ => rfl⟩,
      fun _ h' => absurd rfl h'⟩
  · rw [State.settleFrom_of_not_running (by simp [hls]), hls]
    exact ⟨⟨fun _ => hop ▸ Instr.opcode_eq_zero_iff.2 hmn, fun _ => rfl⟩,
      ⟨fun h' => (by cases h'), fun h' => absurd hop (h' i)⟩, fun h' => absurd rfl h'⟩
  · rw [State.settleFrom_ls_of_running hls]
    refine ⟨⟨fun h' => ?_, fun h' => absurd (Instr.opcode_eq_zero_iff.1 (hop.trans h')) hmn⟩,
      ⟨fun h' => ?_, fun h' => absurd hop (h' i)⟩, fun _ _ => rfl⟩ <;> split at h' <;> cases h'

/-- Settles O29: the instruction decoded moves `pc` by its length, which is one to three; an unlisted byte by one. -/
theorem pcMovesByTheLength : Obligations.PcMovesByTheLength := by
  intro s t h
  obtain ⟨-, rfl⟩ := step_eq_next h
  rw [State.settleFrom_pc]
  have hdecoded : ∀ i rest, decode s.fetchBytes = .ok (i, rest) →
      (tableInstruction Params.default (s.setLs .running)).pc = s.pc + BitVec.ofNat 16 i.length :=
    fun i rest h => tableInstruction_pc_of_decode (s := s.setLs .running) h
  have hunlisted : (∀ i : Instr, i.opcode ≠ s.read s.pc) →
      (tableInstruction Params.default (s.setLs .running)).pc = s.pc + 1 :=
    fun hall => congrArg State.pc (tableInstruction_of_unlisted (s := s.setLs .running) hall)
  refine ⟨hdecoded, hunlisted, ?_⟩
  rcases unlisted_or_decode s with hall | ⟨i, rest, h⟩
  · exact .inl (hunlisted hall)
  · rw [hdecoded i rest h, Instr.length_eq]
    cases i.mode
    case noneAddressing => exact .inl rfl
    case absolute | absoluteX | absoluteY => exact .inr (.inr rfl)
    all_goals exact .inr (.inl rfl)

/-- Settles O30: of the four things an instruction does (`tableInstruction_default_cases`) each writes what its
mnemonic names; an unlisted byte writes no data. -/
theorem stepWritesOnlyWhatItsInstructionMay : Obligations.StepWritesOnlyWhatItsInstructionMay := by
  intro s t h
  have hinert := step_inert h
  obtain ⟨-, rfl⟩ := step_eq_next h
  simp only [State.settleFrom_a, State.settleFrom_x, State.settleFrom_y, State.settleFrom_sp, State.read_settleFrom]
  rcases unlisted_or_decode s with hall | ⟨i, rest, hdecode⟩
  · rw [tableInstruction_of_unlisted (s := s.setLs .running) hall] at hinert ⊢
    exact ⟨rfl, rfl, hinert, fun h => (h rfl).elim, fun h => (h rfl).elim, fun ⟨_, h⟩ => (h rfl).elim⟩
  · rcases tableInstruction_default_cases (s := s.setLs .running) hdecode with
      ⟨v, hmn, e⟩ | ⟨v, hmn, e⟩ | ⟨ea, hmn, e⟩ | ⟨-, e⟩ <;> rw [e] at hinert ⊢
    · exact ⟨rfl, rfl, hinert, fun _ => ⟨i, rest, hdecode, hmn⟩, fun h => (h rfl).elim, fun ⟨_, h⟩ => (h rfl).elim⟩
    · exact ⟨rfl, rfl, hinert, fun h => (h rfl).elim, fun _ => ⟨i, rest, hdecode, hmn⟩, fun ⟨_, h⟩ => (h rfl).elim⟩
    · exact ⟨rfl, rfl, hinert, fun h => (h rfl).elim, fun h => (h rfl).elim, fun _ => ⟨i, rest, hdecode, hmn⟩⟩
    · exact ⟨rfl, rfl, hinert, fun h => (h rfl).elim, fun h => (h rfl).elim, fun ⟨_, h⟩ => (h rfl).elim⟩

/-- Settles O34: the dispatch of STA writes at the effective address, which is where `pc` then stands. -/
theorem storedByteIsTheNextOpcode : Obligations.StoredByteIsTheNextOpcode := by
  intro s i rest hwf hf hdecode hmn hea
  have hstore : tableInstruction Params.default (s.setLs .running) =
      ((s.setLs .running).advance.write (s.pc + BitVec.ofNat 16 i.length) s.a).setPc
        (s.pc + BitVec.ofNat 16 i.length) := by
    rw [tableInstruction_of_decode (s := s.setLs .running) hdecode, hmn, State.advance_setLs,
      dispatch_sta ((s.advance.effectiveAddress_setLs .running indyReading i.mode).trans hea), ← word_add_length]
    rfl
  refine ⟨_, step_of_not_faulted hf, ?_⟩
  rw [hstore, State.opcodeByte, State.read_settleFrom, State.settleFrom_pc]
  exact State.read_write_same (s := (s.setLs .running).advance) hwf _ _

end Sys2Proof.Machine
end

section
/-! The memory transactions of a step (20_memory.md R40): what they are by the row of the opcode byte, that performing
them is what the step does to memory, and that a step sees no cell but those it reads (10_state.md R21). -/

namespace Sys2Proof.Machine

/-! ## The transactions of a handler and of an instruction -/

section Accesses

variable {params : Params} {s : State} {r : IndyReading} {mn : Mnemonic} {m : Mode}

theorem handlerAccesses_of_not_needsAddress (hmn : mn.needsAddress = false) : s.handlerAccesses r mn m = [] := by
  simp [State.handlerAccesses, hmn]

theorem handlerAccesses_of_effectiveAddress_eq_none (h : s.effectiveAddress r m = none) :
    s.handlerAccesses r mn m = [] := by
  simp [State.handlerAccesses, h]

theorem handlerAccesses_of_effectiveAddress {ea : Word} (hmn : mn.needsAddress = true)
    (h : s.effectiveAddress r m = some ea) :
    s.handlerAccesses r mn m = (s.resolverReads r m).map s.readAccess ++ s.dataAccess mn ea := by
  simp [State.handlerAccesses, hmn, h]

theorem instructionAccesses_of_lookup_none (h : params.itab.lookup (s.read s.pc) = none) :
    instructionAccesses params s = [s.readAccess s.pc] := by
  simp only [instructionAccesses, State.opcodeByte, h]

theorem instructionAccesses_of_lookup {d : Descriptor} (h : params.itab.lookup (s.read s.pc) = some d) :
    instructionAccesses params s = s.readAccess s.pc :: s.advance.handlerAccesses params.reading d.mnemonic d.mode := by
  simp only [instructionAccesses, State.opcodeByte, h]

/-- The resolver reads at most an operand byte and two pointer bytes. -/
theorem length_resolverReads_le (s : State) (r : IndyReading) (m : Mode) : (s.resolverReads r m).length ≤ 3 := by
  cases m
  case indirectY => cases r <;> exact Nat.le_refl 3
  all_goals simp [State.resolverReads]

/-- A handler reads at most four bytes, or at most three and then writes `A`. -/
theorem handlerAccesses_cases (s : State) (r : IndyReading) (mn : Mnemonic) (m : Mode) :
    ∃ reads : List Word, (s.handlerAccesses r mn m).length ≤ 4 ∧ (s.handlerAccesses r mn m = reads.map s.readAccess ∨
      ∃ ea, s.handlerAccesses r mn m = reads.map s.readAccess ++ [.write ea s.a]) := by
  cases hea : s.effectiveAddress r m with
  | none => exact ⟨[], by simp [handlerAccesses_of_effectiveAddress_eq_none hea]⟩
  | some ea =>
    have hlen : ((s.resolverReads r m).map s.readAccess).length + 1 ≤ 4 := by
      rw [List.length_map]; exact Nat.succ_le_succ (length_resolverReads_le s r m)
    cases mn with
    | tax | inx | brk => rw [handlerAccesses_of_not_needsAddress rfl]; exact ⟨[], Nat.zero_le 4, .inl rfl⟩
    | sta =>
      rw [handlerAccesses_of_effectiveAddress rfl hea]
      exact ⟨s.resolverReads r m, List.length_append.trans_le hlen, .inr ⟨ea, rfl⟩⟩
    | lda | and =>
      rw [handlerAccesses_of_effectiveAddress rfl hea]
      exact ⟨s.resolverReads r m ++ [ea], List.length_append.trans_le hlen, .inl (by rw [List.map_append]; rfl)⟩

end Accesses

/-- Settles O36: the opcode fetch, and then the accesses of a handler (`handlerAccesses_cases`). -/
theorem aWriteIsTheLastAccess : Obligations.AWriteIsTheLastAccess := by
  intro params s
  cases hlookup : params.itab.lookup (s.read s.pc) with
  | none =>
    rw [instructionAccesses_of_lookup_none hlookup]
    exact ⟨[s.pc], by simp, rfl, .inl rfl⟩
  | some d =>
    rw [instructionAccesses_of_lookup hlookup]
    obtain ⟨reads, hlen, hreads⟩ := handlerAccesses_cases s.advance params.reading d.mnemonic d.mode
    refine ⟨s.pc :: reads, Nat.succ_le_succ hlen, rfl, ?_⟩
    exact hreads.imp (congrArg (s.readAccess s.pc :: ·)) fun ⟨ea, h⟩ => ⟨ea, congrArg (s.readAccess s.pc :: ·) h⟩

/-! ## Performing them -/

theorem foldl_perform_reads (s t : State) (reads : List Word) :
    (reads.map s.readAccess).foldl Access.perform t = t := by
  induction reads with
  | nil => rfl
  | cons b reads ih => exact ih

/-- A handler's transactions, performed on a state with its memory, give the memory the handler leaves. -/
theorem foldl_perform_handlerAccesses {s t : State} (hmem : t.mem = s.mem) (r : IndyReading) (mn : Mnemonic) (m : Mode)
    (n : Nat) : ((s.handlerAccesses r mn m).foldl Access.perform t).mem = (pcMux n (dispatch r mn m s)).mem := by
  cases mn with
  | tax | inx | brk => rw [handlerAccesses_of_not_needsAddress rfl]; exact hmem
  | lda | and | sta =>
    cases hea : s.effectiveAddress r m with
    | none =>
      rw [handlerAccesses_of_effectiveAddress_eq_none hea, dispatch_of_effectiveAddress_eq_none rfl hea]
      exact hmem
    | some ea =>
      rw [handlerAccesses_of_effectiveAddress rfl hea, List.foldl_append, foldl_perform_reads]
      simp [State.dataAccess, Access.perform, dispatch_lda, dispatch_and, dispatch_sta, hea, hmem, pcMux, State.readAccess]

/-- Settles O37: the opcode fetch changes nothing, and the handler's transactions are `foldl_perform_handlerAccesses`. -/
theorem accessesAccountForMemory : Obligations.AccessesAccountForMemory := by
  intro params s
  cases hlookup : params.itab.lookup (s.read s.pc) with
  | none => rw [instructionAccesses_of_lookup_none hlookup, tableInstruction_of_lookup_none hlookup]; rfl
  | some d =>
    rw [instructionAccesses_of_lookup hlookup, tableInstruction_of_lookup hlookup]
    exact foldl_perform_handlerAccesses (s := s.advance) (t := s) rfl params.reading d.mnemonic d.mode d.length

/-! ## Mode by mode -/

/-- Settles O51: the fetch, the resolver's reads of the mode, and the data access; the page-zero addresses as numbers. -/
theorem accessesByModeInOrder : Obligations.AccessesByModeInOrder := by
  intro params s p base zp rd
  refine ⟨instructionAccesses_of_lookup_none, fun d hlookup => ⟨fun hmn => ?_, fun ea data hea hdata => ?_⟩⟩
  · rw [instructionAccesses_of_lookup hlookup, handlerAccesses_of_not_needsAddress]
    · rfl
    · rcases hmn with h | h | h <;> rw [h] <;> rfl
  have hzp : zext16 (s.read p) = zp base := zext16_eq_ofNat_mod _
  have hzp_add (v : Byte) : zext16 (s.read p + v) = zp (base + v.toNat) := zext16_add _ v
  have hzp_one : zext16 (s.read p + 1) = zp (base + 1) := hzp_add 1
  have hzp_succ (v : Byte) : zext16 (s.read p + v + 1) = zp (base + v.toNat + 1) := zext16_add_succ _ v
  have hall : instructionAccesses params s =
      rd s.pc :: ((s.advance.resolverReads params.reading d.mode).map rd ++ [data]) := by
    have hdataAccess : d.mnemonic.needsAddress = true ∧ s.advance.dataAccess d.mnemonic ea = [data] := by
      rcases hdata with ⟨hmn, rfl⟩ | ⟨hmn | hmn, rfl⟩ <;> rw [hmn] <;> exact ⟨rfl, rfl⟩
    obtain ⟨hneeds, hdataAccess⟩ := hdataAccess
    rw [instructionAccesses_of_lookup hlookup, handlerAccesses_of_effectiveAddress hneeds hea, hdataAccess]
    rfl
  rw [hall]
  refine ⟨fun hm => ?_, fun hm => ?_, fun hm => ?_, fun hm => ?_, fun hm hr => ?_, fun hm hr => ?_⟩
  · rw [hm]; rfl
  · rcases hm with hm | hm | hm <;> rw [hm] <;> rfl
  · rcases hm with hm | hm | hm <;> rw [hm] <;> rfl
  · rw [hm, ← hzp_add, ← hzp_succ]; rfl
  · rw [hm, ← hzp, ← hzp_one]; rcases hr with hr | hr <;> rw [hr] <;> rfl
  · rw [hm, hr, ← hzp_add, ← hzp_succ]; rfl

end Sys2Proof.Machine
end

section
/-! Noninterference (10_state.md R21, 20_memory.md R40): two states that differ in memory alone, and agree on the
cells that a step reads, step alike. -/

namespace Sys2Proof.Machine

/-- The state with another memory. -/
def State.withMem (s : State) (m : Memory) : State := { s with mem := m }

/-- Two states, reached from `s` and from `s` with another memory, agree but in memory, and there on the cells on which
the first two agreed. -/
def AgreeFrom (s : State) (m : Memory) (u v : State) : Prop :=
  u.withMem v.mem = v ∧
    (Memory.wf s.mem → Memory.wf m → ∀ b, (s.withMem m).read b = s.read b → v.read b = u.read b)

section WithMem

variable {s : State} {m : Memory} {r : IndyReading} {mode : Mode}

theorem agreeFrom_setA (v : Byte) (t : Word) :
    AgreeFrom s m ((s.setA v).setPc t) (((s.withMem m).setA v).setPc t) :=
  ⟨rfl, fun _ _ _ hb => hb⟩

/-- A byte written in both memories is read back in both, and elsewhere nothing changes. -/
theorem agreeFrom_write (ea : Word) (v : Byte) (t : Word) :
    AgreeFrom s m ((s.write ea v).setPc t) (((s.withMem m).write ea v).setPc t) := by
  refine ⟨rfl, fun hs hm b hb => ?_⟩
  rw [State.read_setPc, State.read_setPc]
  by_cases hbea : b = ea
  · rw [hbea, State.read_write_same hs, State.read_write_same (s := s.withMem m) hm]
  · rw [State.read_write_ne _ _ hbea, State.read_write_ne _ _ hbea, hb]

/-- The resolver sees memory through the cells it reads, for the address and for which cells those are. -/
theorem resolver_withMem (h : ∀ b ∈ s.resolverReads r mode, (s.withMem m).read b = s.read b) :
    (s.withMem m).effectiveAddress r mode = s.effectiveAddress r mode ∧
      (s.withMem m).resolverReads r mode = s.resolverReads r mode := by
  have hpc : (s.withMem m).pc = s.pc := rfl
  have hx : (s.withMem m).x = s.x := rfl
  have hy : (s.withMem m).y = s.y := rfl
  cases mode
  case immediate | noneAddressing => exact ⟨rfl, rfl⟩
  case zeroPage | zeroPageX | zeroPageY =>
    simp only [State.resolverReads, List.forall_mem_cons] at h
    simp only [State.effectiveAddress, State.resolverReads, hpc, hx, hy, h, and_self]
  case absolute | absoluteX | absoluteY =>
    simp only [State.resolverReads, List.forall_mem_cons] at h
    simp only [State.effectiveAddress, State.resolverReads, State.readWord, hpc, hx, hy, h, and_self]
  case indirectX =>
    simp only [State.resolverReads, List.forall_mem_cons] at h
    simp only [State.effectiveAddress, State.resolverReads, State.indirectXAddr, State.zeroPagePointer, hpc, hx, h,
      and_self]
  case indirectY =>
    cases r <;> simp only [State.resolverReads, List.forall_mem_cons] at h <;>
      simp only [State.effectiveAddress, State.resolverReads, State.indirectYAddr, State.zeroPagePointer, hpc, hy, h,
        and_self]

/-- Up to its data access a handler goes the same way in both memories. -/
theorem handlerAccesses_withMem {mn : Mnemonic} {ea : Word} (hmn : mn.needsAddress = true)
    (hea : s.effectiveAddress r mode = some ea)
    (h : ∀ b v, Access.read b v ∈ s.handlerAccesses r mn mode → (s.withMem m).read b = v) :
    (s.withMem m).effectiveAddress r mode = some ea ∧
      (s.withMem m).handlerAccesses r mn mode =
        (s.resolverReads r mode).map s.readAccess ++ (s.withMem m).dataAccess mn ea := by
  rw [handlerAccesses_of_effectiveAddress hmn hea] at h
  have hreads : ∀ b ∈ s.resolverReads r mode, (s.withMem m).read b = s.read b := fun b hb =>
    h b _ (List.mem_append_left _ (List.mem_map_of_mem hb))
  obtain ⟨haddr, hresolver⟩ := resolver_withMem hreads
  have hmap : (s.resolverReads r mode).map (s.withMem m).readAccess = (s.resolverReads r mode).map s.readAccess :=
    List.map_congr_left fun b hb => congrArg (Access.read b) (hreads b hb)
  exact ⟨haddr.trans hea, by rw [handlerAccesses_of_effectiveAddress hmn (haddr.trans hea), hresolver, hmap]⟩

/-- A byte that a handler reads as its data is the same in both memories. -/
theorem read_data_withMem {mn : Mnemonic} {ea : Word} (hmn : mn = .lda ∨ mn = .and)
    (hea : s.effectiveAddress r mode = some ea)
    (h : ∀ b v, Access.read b v ∈ s.handlerAccesses r mn mode → (s.withMem m).read b = v) :
    (s.withMem m).read ea = s.read ea := by
  refine h ea _ ?_
  rcases hmn with rfl | rfl <;> rw [handlerAccesses_of_effectiveAddress rfl hea] <;>
    exact List.mem_append_right _ (List.mem_singleton.2 rfl)

/-- A handler sees memory through the cells its transactions read. -/
theorem handler_withMem {mn : Mnemonic} (n : Nat)
    (h : ∀ b v, Access.read b v ∈ s.handlerAccesses r mn mode → (s.withMem m).read b = v) :
    (s.withMem m).handlerAccesses r mn mode = s.handlerAccesses r mn mode ∧
      AgreeFrom s m (pcMux n (dispatch r mn mode s)) (pcMux n (dispatch r mn mode (s.withMem m))) := by
  cases hneeds : mn.needsAddress with
  | false =>
    rw [handlerAccesses_of_not_needsAddress hneeds, handlerAccesses_of_not_needsAddress hneeds]
    cases mn with
    | tax | inx | brk => exact ⟨rfl, rfl, fun _ _ _ hb => hb⟩
    | lda | and | sta => cases hneeds
  | true =>
    cases hea : s.effectiveAddress r mode with
    | none =>
      have hea' : (s.withMem m).effectiveAddress r mode = none :=
        State.effectiveAddress_eq_none.2 (State.effectiveAddress_eq_none.1 hea)
      rw [handlerAccesses_of_effectiveAddress_eq_none hea, handlerAccesses_of_effectiveAddress_eq_none hea',
        dispatch_of_effectiveAddress_eq_none hneeds hea, dispatch_of_effectiveAddress_eq_none hneeds hea']
      exact ⟨rfl, rfl, fun _ _ _ hb => hb⟩
    | some ea =>
      obtain ⟨hea', haccesses⟩ := handlerAccesses_withMem hneeds hea h
      rw [haccesses, handlerAccesses_of_effectiveAddress hneeds hea]
      cases mn with
      | tax | inx | brk => cases hneeds
      | sta =>
        rw [dispatch_sta hea, dispatch_sta hea']
        exact ⟨rfl, agreeFrom_write ea s.a _⟩
      | lda =>
        have hdata := read_data_withMem (.inl rfl) hea h
        rw [dispatch_lda hea, dispatch_lda hea', hdata]
        exact ⟨congrArg (_ ++ [Access.read ea ·]) hdata, agreeFrom_setA _ _⟩
      | and =>
        have hdata := read_data_withMem (.inr rfl) hea h
        rw [dispatch_and hea, dispatch_and hea', hdata]
        exact ⟨congrArg (_ ++ [Access.read ea ·]) hdata, agreeFrom_setA _ _⟩

/-- An instruction sees memory through the cells its transactions read: the opcode byte, and those of its handler. -/
theorem instruction_withMem {params : Params}
    (h : ∀ b v, Access.read b v ∈ instructionAccesses params s → (s.withMem m).read b = v) :
    instructionAccesses params (s.withMem m) = instructionAccesses params s ∧
      AgreeFrom s m (tableInstruction params s) (tableInstruction params (s.withMem m)) := by
  have hop : (s.withMem m).read s.pc = s.read s.pc := h s.pc _ List.mem_cons_self
  cases hlookup : params.itab.lookup (s.read s.pc) with
  | none =>
    have hlookup' : params.itab.lookup ((s.withMem m).read (s.withMem m).pc) = none := (congrArg _ hop).trans hlookup
    rw [instructionAccesses_of_lookup_none hlookup, instructionAccesses_of_lookup_none hlookup',
      tableInstruction_of_lookup_none hlookup, tableInstruction_of_lookup_none hlookup']
    exact ⟨congrArg ([Access.read s.pc ·]) hop,
      congrArg (fun v => (s.withMem m).advance.raise (.unrecognizedOpcode v s.pc)) hop.symm, fun _ _ _ hb => hb⟩
  | some d =>
    have hlookup' : params.itab.lookup ((s.withMem m).read (s.withMem m).pc) = some d := (congrArg _ hop).trans hlookup
    rw [instructionAccesses_of_lookup hlookup] at h ⊢
    rw [instructionAccesses_of_lookup hlookup', tableInstruction_of_lookup hlookup, tableInstruction_of_lookup hlookup']
    obtain ⟨haccesses, hagree⟩ := handler_withMem (s := s.advance) (m := m) d.length fun b v hb =>
      h b v (List.mem_cons_of_mem _ hb)
    exact ⟨List.cons_eq_cons.2 ⟨congrArg (Access.read s.pc) hop, haccesses⟩, hagree⟩

end WithMem

/-- Settles O38: the second state is the first with another memory, and `instruction_withMem` is about such a pair. -/
theorem stepDependsOnlyOnTheCellsItReads : Obligations.StepDependsOnlyOnTheCellsItReads := by
  intro params s t heq h
  obtain ⟨m, rfl⟩ : ∃ m, t = s.withMem m := ⟨t.mem, heq.symm⟩
  exact instruction_withMem h

end Sys2Proof.Machine
end

section
/-! The host's commands (70_reset_and_hazards.md R200 to R207): an equation for each command by the lifecycle state it
meets, and the loop of `run` by its fuel. -/

namespace Sys2Proof.Machine

/-! ## `load`, `reset` and the host's access -/

/-- The state that `load` leaves where the image fits (R201): the image, the vector, no record, Loaded. -/
def State.loaded (bytes : List Byte) (s : State) : State :=
  ((State.writeBytes bytes 0x8000 s).writeWord 0xFFFC 0x8000).clearFault.setLs .loaded

theorem State.loaded_ls (bytes : List Byte) (s : State) : (s.loaded bytes).ls = .loaded := rfl

theorem perform_of_running (fuel : Nat) {s : State} (h : s.ls = .running) (c : Command) :
    perform fuel c s = (s, .notAccepted) := by
  cases c with
  | inspect => rw [perform, inspectCommand, State.inspect_eq_none.2 h]
  | loadAndRun bytes => simp [perform, loadAndRunCommand, loadCommand, h]
  | load | reset | run | step | memoryRead | memoryWrite => exact if_pos h

section Commands

variable {s : State}

theorem loadCommand_of_fits {bytes : List Byte} (hr : s.ls ≠ .running) (hfits : bytes.length ≤ 0x8000) :
    loadCommand bytes s = (s.loaded bytes, .done) := by
  rcases loadCommand_cases bytes s with ⟨h, -⟩ | ⟨-, h, -⟩ | ⟨-, -, h⟩
  · exact absurd h hr
  · omega
  · exact h

theorem loadCommand_of_not_fits {bytes : List Byte} (hr : s.ls ≠ .running) (hbytes : 0x8000 < bytes.length) :
    loadCommand bytes s = (s, .imageOverflow) := by
  rcases loadCommand_cases bytes s with ⟨h, -⟩ | ⟨-, -, h⟩ | ⟨-, h, -⟩
  · exact absurd h hr
  · exact h
  · omega

theorem resetCommand_of_not_running (hr : s.ls ≠ .running) : resetCommand s = (resetWith Config.resetP s, .done) :=
  if_neg hr

theorem loadAndRunCommand_of_fits (fuel : Nat) {bytes : List Byte} (hr : s.ls ≠ .running)
    (hfits : bytes.length ≤ 0x8000) :
    loadAndRunCommand fuel bytes s = runCommand fuel (resetWith Config.resetP (s.loaded bytes)) := by
  have hreset := resetCommand_of_not_running (s := s.loaded bytes) (by rw [State.loaded_ls]; decide)
  simp [loadAndRunCommand, loadCommand_of_fits hr hfits, hreset]

theorem loadAndRunCommand_of_not_fits (fuel : Nat) {bytes : List Byte} (hr : s.ls ≠ .running)
    (hbytes : 0x8000 < bytes.length) : loadAndRunCommand fuel bytes s = (s, .imageOverflow) := by
  simp [loadAndRunCommand, loadCommand_of_not_fits hr hbytes]

theorem memoryReadCommand_of_not_running (hr : s.ls ≠ .running) (b : Word) :
    memoryReadCommand b s = (s, .byte (s.read b)) := if_neg hr

theorem memoryWriteCommand_of_not_running (hr : s.ls ≠ .running) (b : Word) (v : Byte) :
    memoryWriteCommand b v s = (s.write b v, .done) := if_neg hr

theorem inspectCommand_of_not_running (hr : s.ls ≠ .running) : inspectCommand s = (s, .inspected s.shown) := by
  rw [inspectCommand, State.inspect_eq_some.2 ⟨hr, rfl⟩]

/-! ## `run` and `step` -/

theorem runCommand_of_running (fuel : Nat) (hr : s.ls = .running) : runCommand fuel s = (s, .notAccepted) := if_pos hr

theorem runCommand_of_faulted (fuel : Nat) (hf : s.ls = .faulted) : runCommand fuel s = (s, .refused) := by
  simp [runCommand, hf]

theorem runCommand_of_stopped (fuel : Nat) (hr : s.ls ≠ .running) (hf : s.ls ≠ .faulted) :
    runCommand fuel s = (runLoop fuel (s.setLs .running), (runLoop fuel (s.setLs .running)).report) := by
  rw [runCommand, if_neg hr, if_neg hf]

theorem stepCommand_of_faulted (hf : s.ls = .faulted) : stepCommand s = (s, .refused) := by
  simp [stepCommand, machineStep, lifecycleStep_of_faulted hf, hf]

theorem stepCommand_of_stopped (hr : s.ls ≠ .running) (hf : s.ls ≠ .faulted) :
    stepCommand s = ((tableInstruction Params.default (s.setLs .running)).settle,
      (tableInstruction Params.default (s.setLs .running)).settle.report) := by
  rw [stepCommand, if_neg hr, machineStep, lifecycleStep_of_stopped hr hf, runInstruction_eq]
  rfl

end Commands

/-! ## The loop of `run` -/

theorem runLoop_succ_of_running (n : Nat) {s : State} (h : s.ls = .running) :
    runLoop (n + 1) s = runLoop n (tableInstruction Params.default s) := by
  rw [runLoop, if_pos h, runInstruction_eq]

/-- Fuel spent in two parts is fuel spent at once. -/
theorem runLoop_add (n k : Nat) (s : State) : runLoop (n + k) s = runLoop k (runLoop n s) := by
  induction n generalizing s with
  | zero => rw [Nat.zero_add, runLoop]
  | succ n ih =>
    by_cases h : s.ls = .running
    · rw [Nat.add_right_comm, runLoop_succ_of_running _ h, runLoop_succ_of_running _ h, ih]
    · rw [runLoop_of_not_running _ h, runLoop_of_not_running _ h, runLoop_of_not_running _ h]

theorem runLoop_succ_last (n : Nat) {s : State} (h : (runLoop n s).ls = .running) :
    runLoop (n + 1) s = tableInstruction Params.default (runLoop n s) := by
  rw [runLoop_add, runLoop_succ_of_running 0 h, runLoop]

/-- The lifecycle states that a run can be in. -/
def Lifecycle.OfRun (l : Lifecycle) : Prop := l = .halted ∨ l = .faulted ∨ l = .running

theorem tableInstruction_ofRun {s : State} (h : s.ls = .running) : (tableInstruction Params.default s).ls.OfRun := by
  rcases tableInstruction_ls_cases h with ⟨-, hl⟩ | ⟨-, -, ⟨-, hl⟩ | ⟨-, hl⟩⟩
  · exact .inr (.inl hl)
  · exact .inl hl
  · exact .inr (.inr hl)

theorem runLoop_ofRun (n : Nat) {s : State} (h : s.ls = .running) : (runLoop n s).ls.OfRun :=
  runLoop_keeps (P := fun t => t.ls.OfRun)
    (fun u t hu _ ht => by rw [runInstruction_eq] at ht; cases ht; exact tableInstruction_ofRun hu) n (.inr (.inr h))

theorem standsAfterRun_runCommand (fuel : Nat) {s : State} (hr : s.ls ≠ .running) (hf : s.ls ≠ .faulted) :
    Claims.StandsAfterRun (runCommand fuel s) := by
  rw [runCommand_of_stopped fuel hr hf]
  rcases runLoop_ofRun fuel (s.setLs_ls .running) with h | h | h
  · exact .inl ⟨h, by simp only [State.report, h]⟩
  · exact .inr (.inl ⟨h, by simp only [State.report, h]⟩)
  · exact .inr (.inr ⟨h, by simp only [State.report, h]⟩)

theorem State.settle_setLs_running {s : State} (h : s.ls = .running) : s.settle.setLs .running = s := by
  rw [State.settle, if_pos h]; exact State.setLs_of_eq h

/-! ## The statements about runs -/

/-- Settles O48: the states a run can be in (`runLoop_ofRun`), and fuel beyond the end meets a machine that does not
move. -/
theorem runEndsOnlyInHaltedOrFaulted : Obligations.RunEndsOnlyInHaltedOrFaulted := by
  intro fuel s hr hf
  refine ⟨standsAfterRun_runCommand fuel hr hf, fun hended more => ?_⟩
  rw [runCommand_of_stopped _ hr hf] at hended
  rw [runCommand_of_stopped _ hr hf, runCommand_of_stopped _ hr hf, runLoop_add, runLoop_of_not_running more hended]

/-- Settles O49, by induction on the number of steps: a step from the settled state runs from the state of the loop. -/
theorem stepCommandsReachWhatRunReaches : Obligations.StepCommandsReachWhatRunReaches := by
  intro n s hr hf hrunning
  simp only [runCommand_of_stopped _ hr hf] at hrunning ⊢
  induction n with
  | zero =>
    rw [Function.iterate_one, stepCommand_of_stopped hr hf, runLoop_succ_of_running (s := s.setLs .running) 0 rfl, runLoop]
  | succ n ih =>
    have hlast : (runLoop (n + 1) (s.setLs .running)).ls = .running := hrunning (n + 1) le_rfl
    have hready : (runLoop (n + 1) (s.setLs .running)).settle.ls = .ready := by rw [State.settle_ls, if_pos hlast]
    rw [Function.iterate_succ_apply', ih fun k hk => hrunning k (Nat.le_succ_of_le hk),
      stepCommand_of_stopped (by simp [hready]) (by simp [hready]), State.settle_setLs_running hlast,
      runLoop_succ_last (n + 1) hlast]

/-! ## `load`, `reset`, `loadAndRun` -/

theorem State.loaded_eq (bytes : List Byte) (s : State) :
    s.loaded bytes = { s with mem := (s.loaded bytes).mem, fr := none, ls := .loaded } := by
  have h := State.writeBytes_eq bytes 0x8000 s
  simp only [State.loaded, State.writeWord, State.write, State.clearFault, State.setLs]
  rw [h]

theorem State.read_loaded (bytes : List Byte) (s : State) {b : Word} (hlow : b ≠ 0xFFFC) (hhigh : b ≠ 0xFFFD) :
    (s.loaded bytes).read b = (State.writeBytes bytes 0x8000 s).read b :=
  State.read_writeWord_ne _ 0x8000 hlow hhigh

/-- Settles O44: `writeBytes` puts the image at 0x8000 and `writeWord` the vector over it; the rest is the frame of
both. -/
theorem loadPlacesTheImageAndTheVector : Obligations.LoadPlacesTheImageAndTheVector := by
  intro bytes s hwf hr hfits
  have hbase : (0x8000 : Word).toNat + bytes.length ≤ 0x10000 := Nat.add_le_add_left hfits 0x8000
  have himage : Memory.wf (State.writeBytes bytes 0x8000 s).mem := State.wf_writeBytes hwf bytes 0x8000
  refine ⟨_, loadCommand_of_fits hr hfits, fun k hk hlow hhigh => ?_, State.read_writeWord_low himage 0xFFFC 0x8000,
    State.read_writeWord_high himage 0xFFFC 0x8000, fun b hlow hhigh hb => ?_, rfl, rfl, State.loaded_eq bytes s⟩
  · have hne (j : Nat) (hj : j < 0x8000) (hkj : k ≠ j) :
        (0x8000 : Word) + BitVec.ofNat 16 k ≠ 0x8000 + BitVec.ofNat 16 j := by
      intro h
      have := congrArg BitVec.toNat h
      simp only [BitVec.toNat_add, BitVec.toNat_ofNat] at this
      omega
    rw [State.read_loaded _ _ (hne 0x7FFC (by decide) hlow) (hne 0x7FFD (by decide) hhigh)]
    exact State.read_writeBytes_inside hwf hbase k hk
  · rw [State.read_loaded _ _ hlow hhigh]
    exact State.read_writeBytes_outside (.inr ⟨hbase, hb⟩)

/-- Settles O45: `load` rejects the image, and `loadAndRun` ends with it. -/
theorem oversizedImageChangesNothing : Obligations.OversizedImageChangesNothing := fun fuel _ _ hr hbytes =>
  ⟨loadCommand_of_not_fits hr hbytes, loadAndRunCommand_of_not_fits fuel hr hbytes⟩

/-- Settles O46: the run starts from the reset of the loaded state, whose `pc` is the vector just written. -/
theorem loadAndRunStartsAtTheProgramBase : Obligations.LoadAndRunStartsAtTheProgramBase := by
  intro fuel bytes s hwf hr hfits
  have hvector : (s.loaded bytes).readWord 0xFFFC = 0x8000 :=
    State.readWord_writeWord_same (State.wf_writeBytes hwf bytes 0x8000) 0xFFFC 0x8000
  have hsp : (s.loaded bytes).sp = s.sp := by rw [State.loaded_eq]
  refine ⟨_, loadAndRunCommand_of_fits fuel hr hfits, hvector, rfl, rfl, rfl, hsp, rfl, rfl, rfl, ?_⟩
  rw [perform, loadCommand_of_fits hr hfits]; rfl

/-- Settles O43: `resetWith` at the default `RESET_P`, whose second application reads the same vector. -/
theorem resetZeroesRegistersAndLoadsPc : Obligations.ResetZeroesRegistersAndLoadsPc := fun s hr =>
  ⟨_, resetCommand_of_not_running hr, rfl, rfl, rfl, Flags.toByte_ofByte 0x00, s.toNat_readWord 0xFFFC, rfl, rfl, rfl,
    fun _ => rfl, rfl⟩

/-! ## The host's access, and the lifecycle table -/

/-- Settles O50: the accepted read and write, and the law of a read after a write. -/
theorem hostReadsAndWritesMemory : Obligations.HostReadsAndWritesMemory := by
  intro fuel s b v hwf hr
  refine ⟨memoryReadCommand_of_not_running hr b, _, memoryWriteCommand_of_not_running hr b v, ?_,
    fun _ => s.read_write_ne v, rfl⟩
  rw [perform, memoryReadCommand_of_not_running (s := s.write b v) hr, State.read_write_same hwf]

/-- Settles O52: the port shows `State.shown` exactly when the machine is not Running, and its packed flags lose none. -/
theorem hostInspectsOnlyWhenNotRunning : Obligations.HostInspectsOnlyWhenNotRunning := fun fuel s =>
  ⟨fun hr => ⟨State.inspect_eq_none.2 hr, perform_of_running fuel hr .inspect⟩,
    fun hr => ⟨s.shown, State.inspect_eq_some.2 ⟨hr, rfl⟩, inspectCommand_of_not_running hr, rfl, rfl, rfl, rfl,
      s.p.ofByte_toByte, rfl, rfl⟩⟩

/-- How the single-step command stands, by the three ends of an instruction (R204). -/
theorem stepCommand_stands {s : State} (hr : s.ls ≠ .running) (hf : s.ls ≠ .faulted) :
    (stepCommand s).1.ls = .ready ∧ (stepCommand s).2 = .continuing ∨
      (stepCommand s).1.ls = .halted ∧ (stepCommand s).2 = .halted ∨
      (stepCommand s).1.ls = .faulted ∧ (stepCommand s).2 = .faulted (stepCommand s).1.fr := by
  rw [stepCommand_of_stopped hr hf]
  rcases tableInstruction_ofRun (s.setLs_ls .running) with h | h | h
  · exact .inr (.inl (by simp [State.report, State.settle_ls, h]))
  · exact .inr (.inr (by simp [State.report, State.settle_ls, h]))
  · exact .inl (by simp [State.report, State.settle_ls, h])

/-- Settles O47: each command's equation by the lifecycle state it meets. -/
theorem lifecycleTransitions : Obligations.LifecycleTransitions := by
  intro fuel s
  refine ⟨perform_of_running fuel, fun hf => ⟨runCommand_of_faulted fuel hf, stepCommand_of_faulted hf⟩,
    fun hr => ⟨?_, ?_, ?_, fun bytes hfits => ?_, fun bytes => oversizedImageChangesNothing fuel bytes s hr, fun b v =>
      ⟨memoryReadCommand_of_not_running hr b, memoryWriteCommand_of_not_running hr b v, rfl, rfl,
        inspectCommand_of_not_running hr⟩⟩,
    fun hr hf => ⟨?_, standsAfterRun_runCommand fuel hr hf, stepCommand_stands hr hf⟩⟩
  · rw [perform, resetCommand_of_not_running hr]; rfl
  · rw [perform, resetCommand_of_not_running hr]; rfl
  · rw [perform, resetCommand_of_not_running hr]
  · rw [perform, perform, loadCommand_of_fits hr hfits, loadAndRunCommand_of_fits fuel hr hfits]
    exact ⟨rfl, rfl, rfl, standsAfterRun_runCommand fuel (by simp [resetWith]) (by simp [resetWith])⟩
  · rw [perform, runCommand_of_stopped 0 hr hf]; rfl

/-- Settles O42: power-on by its fields; a cell of the empty memory reads 0x00. -/
theorem powerOnIsZeroed : Obligations.PowerOnIsZeroed :=
  ⟨rfl, rfl, rfl, rfl, by decide, rfl, fun _ => rfl, rfl, rfl⟩

end Sys2Proof.Machine
end

section
/-! The invariant of the machine and the registers no program writes (10_state.md R15, R19, R22), along every step and
every command; and the word placed at `pc`. -/

namespace Sys2Proof.Machine

/-! ## What every step and command keeps -/

/-- A predicate kept by the operations that the step and the commands are composed of. -/
structure KeptByOperations (P : State → Prop) : Prop where
  write : ∀ {s} (b : Word) (v : Byte), P s → P (s.write b v)
  start : ∀ {s}, s.ls ≠ .faulted → P s → P (s.setLs .running)
  instruction : ∀ {s}, s.ls = .running → P s → P (tableInstruction Params.default s)
  settle : ∀ {s}, P s → P s.settle
  load : ∀ {s}, P s → P (s.clearFault.setLs .loaded)
  reset : ∀ {s}, P s → P (resetWith Config.resetP s)

namespace KeptByOperations

variable {P : State → Prop} (hP : KeptByOperations P) {s t : State}

include hP

theorem step (hs : P s) (h : step s = .next t) : P t := by
  obtain ⟨hf, rfl⟩ := step_eq_next h
  have hu := hP.instruction rfl (hP.start hf hs)
  unfold State.settleFrom
  split
  · exact hu
  · exact hP.settle hu

theorem writeBytes (bytes : List Byte) (b : Word) (hs : P s) : P (State.writeBytes bytes b s) := by
  induction bytes generalizing b s with
  | nil => exact hs
  | cons v bytes ih => exact ih (b + 1) (hP.write b v hs)

theorem loaded (bytes : List Byte) (hs : P s) : P (s.loaded bytes) :=
  hP.load (hP.write _ _ (hP.write _ _ (hP.writeBytes bytes 0x8000 hs)))

theorem runCommand (fuel : Nat) (hs : P s) : P (runCommand fuel s).1 := by
  by_cases hr : s.ls = .running
  · rw [runCommand_of_running fuel hr]; exact hs
  · by_cases hf : s.ls = .faulted
    · rw [runCommand_of_faulted fuel hf]; exact hs
    · rw [runCommand_of_stopped fuel hr hf]
      refine runLoop_keeps (fun u v hu hPu hv => ?_) fuel (hP.start hf hs)
      rw [runInstruction_eq] at hv
      cases hv
      exact hP.instruction hu hPu

/-- What the operations keep, every command keeps. -/
theorem perform (fuel : Nat) (c : Command) (hs : P s) : P (perform fuel c s).1 := by
  by_cases hr : s.ls = .running
  · rw [perform_of_running fuel hr]; exact hs
  cases c with
  | load bytes =>
    rw [Machine.perform]
    by_cases hfits : bytes.length ≤ 0x8000
    · rw [loadCommand_of_fits hr hfits]; exact hP.loaded bytes hs
    · rw [loadCommand_of_not_fits hr (Nat.lt_of_not_le hfits)]; exact hs
  | reset => rw [Machine.perform, resetCommand_of_not_running hr]; exact hP.reset hs
  | run => exact hP.runCommand fuel hs
  | step =>
    rw [Machine.perform]
    by_cases hf : s.ls = .faulted
    · rw [stepCommand_of_faulted hf]; exact hs
    · rw [stepCommand_of_stopped hr hf]; exact hP.settle (hP.instruction rfl (hP.start hf hs))
  | loadAndRun bytes =>
    rw [Machine.perform]
    by_cases hfits : bytes.length ≤ 0x8000
    · rw [loadAndRunCommand_of_fits fuel hr hfits]; exact hP.runCommand fuel (hP.reset (hP.loaded bytes hs))
    · rw [loadAndRunCommand_of_not_fits fuel hr (Nat.lt_of_not_le hfits)]; exact hs
  | memoryRead b => rw [Machine.perform, memoryReadCommand_of_not_running hr]; exact hs
  | memoryWrite b v => rw [Machine.perform, memoryWriteCommand_of_not_running hr]; exact hP.write b v hs
  | inspect => rw [Machine.perform, inspectCommand_of_not_running hr]; exact hs

end KeptByOperations

/-! ## The invariant -/

section Inv

variable {s : State}

theorem State.Inv.fr_eq_none (h : s.Inv) (hf : s.ls ≠ .faulted) : s.fr = none := by
  obtain ⟨-, hrecord, -⟩ := h
  exact not_ne_iff.1 (mt hrecord.2 hf)

/-- Between lifecycle states other than Faulted the invariant does not see `ls`. -/
theorem State.Inv.setLs (h : s.Inv) (hf : s.ls ≠ .faulted) {l : Lifecycle} (hl : l ≠ .faulted) : (s.setLs l).Inv := by
  have hfr := h.fr_eq_none hf
  obtain ⟨hmem, -, hflags⟩ := h
  exact ⟨hmem, ⟨fun h => absurd h hl, fun h => absurd hfr h⟩, hflags⟩

theorem State.Inv.raise (h : s.Inv) (r : FaultRecord) : (s.raise r).Inv := by
  obtain ⟨hmem, -, hflags⟩ := h
  exact ⟨hmem, ⟨fun _ => Option.some_ne_none r, fun _ => rfl⟩, hflags⟩

theorem State.Inv.write (h : s.Inv) (b : Word) (v : Byte) : (s.write b v).Inv := by
  obtain ⟨hmem, hrecord, hflags⟩ := h
  exact ⟨State.wf_write hmem b v, hrecord, hflags⟩

theorem State.Inv.setZN (h : s.Inv) (v : Byte) : ({ s with p := s.p.setZN v } : State).Inv := by
  obtain ⟨hmem, hrecord, -⟩ := h
  exact ⟨hmem, hrecord, s.p.setZN_not_both v⟩

theorem State.Inv.settle (h : s.Inv) : s.settle.Inv := by
  unfold State.settle
  split
  · next hr => exact h.setLs (by simp [hr]) (by decide)
  · exact h

theorem State.Inv.load (h : s.Inv) : (s.clearFault.setLs .loaded).Inv := by
  obtain ⟨hmem, -, hflags⟩ := h
  exact ⟨hmem, by simp, hflags⟩

theorem State.Inv.reset (h : s.Inv) : (resetWith Config.resetP s).Inv := by
  obtain ⟨hmem, -, -⟩ := h
  exact ⟨hmem, by simp [resetWith], by simp [resetWith, Flags.ofByte]⟩

theorem State.Inv.tableInstruction (h : s.Inv) (hr : s.ls = .running) : (tableInstruction Params.default s).Inv := by
  rcases unlisted_or_decode s with hall | ⟨i, rest, hdecode⟩
  · rw [tableInstruction_of_unlisted hall]
    exact State.Inv.raise (s := s.advance) h _
  · rcases tableInstruction_default_cases hdecode with ⟨v, -, e⟩ | ⟨v, -, e⟩ | ⟨ea, -, e⟩ | ⟨-, e⟩ <;> rw [e]
    · exact h.setZN v
    · exact h.setZN v
    · exact State.Inv.write (s := s.advance) h ea s.a
    · exact State.Inv.setLs (s := s.advance) h (by simp [hr]) (by decide)

end Inv

theorem inv_keptByOperations : KeptByOperations State.Inv where
  write b v h := h.write b v
  start hf h := h.setLs hf (by decide)
  instruction hr h := h.tableInstruction hr
  settle h := h.settle
  load h := h.load
  reset h := h.reset

/-! ## The registers that no program writes -/

theorem tableInstruction_y_sp (params : Params) (s : State) :
    (tableInstruction params s).y = s.y ∧ (tableInstruction params s).sp = s.sp := by
  rcases tableInstruction_cases params s with
    ⟨-, e⟩ | ⟨d, -, ⟨v, -, e⟩ | ⟨v, -, e⟩ | ⟨ea, -, e⟩ | ⟨-, e⟩ | ⟨-, -, e⟩⟩ <;> rw [e] <;> exact ⟨rfl, rfl⟩

theorem unwritten_keptByOperations : KeptByOperations State.Unwritten where
  write _ _ h := h
  start _ h := h
  instruction {s} _ h := by
    obtain ⟨hy, hsp, hinert⟩ := h
    obtain ⟨hy', hsp'⟩ := tableInstruction_y_sp Params.default s
    exact ⟨hy'.trans hy, hsp'.trans hsp, (runInstruction_inert (runInstruction_eq s)).trans hinert⟩
  settle h := by simpa only [State.Unwritten, State.settle_y, State.settle_sp, State.settle_p] using h
  load h := h
  reset h := by
    obtain ⟨-, hsp, -⟩ := h
    exact ⟨rfl, hsp, rfl⟩

/-! ## The statements -/

/-- Settles O40: the invariant is kept by the operations of a step (`inv_keptByOperations`). -/
theorem everyStepKeepsTheInvariant : Obligations.EveryStepKeepsTheInvariant := fun _ _ hs h =>
  inv_keptByOperations.step hs h

/-- Settles O41: both predicates are kept by the operations that the commands are composed of. -/
theorem everyCommandKeepsTheInvariant : Obligations.EveryCommandKeepsTheInvariant := fun fuel c _ =>
  ⟨inv_keptByOperations.perform fuel c, unwritten_keptByOperations.perform fuel c⟩

/-- Settles O39: the two states by evaluation. -/
theorem invariantHoldsAtPowerOnAndReset : Obligations.InvariantHoldsAtPowerOnAndReset :=
  ⟨by decide, by decide, by decide, by decide, by decide⟩

/-! ## The word placed at `pc` -/

theorem exists_decode_of_decodeTableWord {nbits w : Nat} {i : Instr} (h : decodeTableWord nbits w = some i) :
    ∃ rest, decode (tableBytes nbits w) = .ok (i, rest) := by
  unfold decodeTableWord at h
  split at h
  · next rest hdecode => cases h; exact ⟨rest, hdecode⟩
  · cases h

/-- Three bytes written at `pc` are those that the decoder is given, wherever `pc` stands. -/
theorem fetchBytes_writeBytes {s : State} (hwf : Memory.wf s.mem) (u v w : Byte) :
    (State.writeBytes [u, v, w] s.pc s).fetchBytes = [u, v, w] := by
  have hsucc : s.pc + 1 + 1 = s.pc + 2 := word_succ_succ s.pc
  have h01 : s.pc ≠ s.pc + 1 := left_ne_add.2 (by decide)
  have h02 : s.pc ≠ s.pc + 2 := left_ne_add.2 (by decide)
  have h12 : s.pc + 1 ≠ s.pc + 2 := (add_right_injective s.pc).ne (by decide)
  have hwf1 := State.wf_write hwf s.pc u
  have hwf2 := State.wf_write hwf1 (s.pc + 1) v
  simp only [State.writeBytes, State.fetchBytes, State.write_pc, hsucc]
  rw [State.read_write_ne _ _ h02, State.read_write_ne _ _ h01, State.read_write_same hwf, State.read_write_ne _ _ h12,
    State.read_write_same hwf1, State.read_write_same hwf2]

theorem withFetchWord_of_not_faulted {s : State} (hf : s.ls ≠ .faulted) (nbits w : Nat) :
    s.withFetchWord nbits w = State.writeBytes (tableBytes nbits w) s.pc s := if_neg hf

theorem withFetchWord_of_faulted {s : State} (hf : s.ls = .faulted) (nbits w : Nat) :
    s.withFetchWord nbits w = (State.writeBytes (tableBytes nbits w) s.pc s).clearFault.setLs .ready := if_pos hf

/-- Settles O35: the three bytes written are what is fetched (`fetchBytes_writeBytes`); from Faulted, the record and the
lifecycle state change besides. -/
theorem fetchWordIsWhatTheNextStepRuns : Obligations.FetchWordIsWhatTheNextStepRuns := by
  intro s nbits w i hwf hi
  dsimp only
  have hfetch : ∃ rest, decode (State.writeBytes (tableBytes nbits w) s.pc s).fetchBytes = .ok (i, rest) := by
    rw [tableBytes, fetchBytes_writeBytes hwf]; exact exists_decode_of_decodeTableWord hi
  have hframe : ∀ b, b ≠ s.pc → b ≠ s.pc + 1 → b ≠ s.pc + 2 →
      (State.writeBytes (tableBytes nbits w) s.pc s).read b = s.read b := by
    intro b h0 h1 h2
    have hsucc : s.pc + 1 + 1 = s.pc + 2 := word_succ_succ s.pc
    simp only [tableBytes, State.writeBytes, hsucc]
    rw [State.read_write_ne _ _ h2, State.read_write_ne _ _ h1, State.read_write_ne _ _ h0]
  obtain ⟨m, hm⟩ : ∃ m, State.writeBytes (tableBytes nbits w) s.pc s = s.withMem m := ⟨_, State.writeBytes_eq _ _ _⟩
  rw [hm] at hfetch hframe
  by_cases hf : s.ls = .faulted
  · rw [withFetchWord_of_faulted hf, hm]
    exact ⟨hfetch, by simp, fun h => absurd hf h, rfl, rfl, rfl, rfl, rfl, rfl, hframe⟩
  · rw [withFetchWord_of_not_faulted hf, hm]
    exact ⟨hfetch, hf, fun _ => ⟨rfl, rfl⟩, rfl, rfl, rfl, rfl, rfl, rfl, hframe⟩

end Sys2Proof.Machine
end
